-- ==== Sys2Proof/Word.lean ====
section
/-! DEFINITION. The byte and word types of the engine and the fixed-length byte strings made of them
(`00_scope.md` R10, R11; sizes from R8). -/

namespace Sys2Proof

/-- A byte: 8 bits (R10). -/
abbrev Byte := BitVec 8

/-- A word: 32 bits (R11); `+` on it is the spec's `+32`. -/
abbrev Word := BitVec 32

/-- A lane: 16 bytes, `LANE_BYTES` of R8. -/
abbrev Lane := Vector Byte 16

/-- An operand register's content, or a result: 64 bytes, `STATE_BYTES` and `BLOCK_BYTES` of R8. -/
abbrev Operand := Vector Byte 64

end Sys2Proof
end

