-- ==== Sys2Proof/Machine/Event.lean ====
section
/-! DEFINITION. What the host can do to the engine: the two port transactions and reset
(`43_host_port.md` R140, R141; `70_reset_and_hazards.md` R170; a run is a list of these, R181). -/

namespace Sys2Proof.Machine

/-- One host event. An address is 8 bits (`20_memory.md` R40); a length is a number, so that a sum
`addr + n` does not wrap (R44). -/
inductive Event where
  /-- `HREAD addr, n` (R140): the host reads `n` bytes. -/
  | hread (addr : Byte) (n : Nat)
  /-- `HWRITE addr, data` (R141): the host writes the bytes `data`, lowest address first. -/
  | hwrite (addr : Byte) (data : List Byte)
  /-- Reset (R170): an external event, not a command and not a register write. -/
  | reset
  deriving DecidableEq, Repr

end Sys2Proof.Machine
end

