-- ==== Sys2Proof/Syntax.lean ====
section
/-! DEFINITION. The operations of the command set `UPE-1` that have a command byte: one constructor per row
of `spec/opcode_table.json` (`00_scope.md` R2, `30_encoding.md` R62). The two host port transactions are
not encoded as bits (R66); they are constructors of `Machine.Event`. -/

namespace Sys2Proof

/-- The four operations. -/
inductive Instr where
  /-- `AESC`: `AES_Compress`, `40_aes.md` R88. -/
  | aesc
  /-- `SHAC`: `SHA256_Compress`, `41_sha256.md` R107. -/
  | shac
  /-- `B3C`: `BLAKE3_Compress`, `42_blake3.md` R126. -/
  | b3c
  /-- `AESR lane, key`: one AES round on lane `lane` of `S` with lane `key` of `B`, `40_aes.md` R87.
  Both fields are unsigned numbers 0 to 3 and independent (R63). -/
  | aesr (lane key : Fin 4)
  deriving DecidableEq, Repr

end Sys2Proof
end

