-- ==== Sys2Proof/WellFormed.lean ====
section
/-! DEFINITION. The checks on what is presented to the engine. An `Instr` needs none: its two fields are
numbers 0 to 3 by type, and all 19 terms are legal commands (`30_encoding.md` R63, R64). An access names
at least one byte (`n >= 1`: `20_memory.md` R44, R45; `43_host_port.md` R140, R141). -/

namespace Sys2Proof.Machine

/-- The event is one the spec has: an access of at least one byte, or reset. -/
def Event.wellFormed : Event → Bool
  | .hread _ n => n != 0
  | .hwrite _ data => !data.isEmpty
  | .reset => true

end Sys2Proof.Machine
end

