-- ==== Sys2Proof/Decode.lean ====
section
/-! DEFINITION. Command decode and encode (`30_encoding.md` R60 to R65): the command byte
`RSV[7:6] KEY[5:4] LANE[3:2] OP[1:0]`, total on any bytes, rejecting by name. -/

namespace Sys2Proof

/-- Why bytes presented as a command are no command. Each makes the write a contract violation
(`60_exceptions.md` R150), never a stop. -/
inductive Reject where
  /-- V1: bits 7:6 of the byte are not 0 (R65, first class). -/
  | reservedBits
  /-- V2: `LANE` or `KEY` is not 0 and `OP` is not 3 (R65, second class). -/
  | operandField
  /-- V6: a command is one byte (R60); none or several were given. -/
  | notOneByte
  deriving DecidableEq, Repr

/-- Field `OP`, bits 1:0 (R60). -/
def cmdOp (c : Byte) : BitVec 2 := c.extractLsb' 0 2

/-- Field `LANE`, bits 3:2 (R60). -/
def cmdLane (c : Byte) : BitVec 2 := c.extractLsb' 2 2

/-- Field `KEY`, bits 5:4 (R60). -/
def cmdKey (c : Byte) : BitVec 2 := c.extractLsb' 4 2

/-- Field `RSV`, bits 7:6 (R60). -/
def cmdRsv (c : Byte) : BitVec 2 := c.extractLsb' 6 2

/-- The decode part of `Execute(c)`, R61, its checks in R155's order. -/
def decodeByte (c : Byte) : Except Reject Instr :=
  if cmdRsv c ≠ 0 then .error .reservedBits
  else if cmdOp c ≠ 3 ∧ (cmdLane c ≠ 0 ∨ cmdKey c ≠ 0) then .error .operandField
  else if cmdOp c = 0 then .ok .aesc
  else if cmdOp c = 1 then .ok .shac
  else if cmdOp c = 2 then .ok .b3c
  else .ok (.aesr (cmdLane c).toFin (cmdKey c).toFin)

/-- Decode of the bytes written at `CMD`: a command is exactly one byte (R60). -/
def decode : List Byte → Except Reject Instr
  | [c] => decodeByte c
  | _ => .error .notOneByte

/-- The command byte of an operation, by the opcode map R64. -/
def encodeByte : Instr → Byte
  | .aesc => 0x00
  | .shac => 0x01
  | .b3c => 0x02
  | .aesr lane key => BitVec.ofNat 8 (0x03 + 4 * lane.val + 16 * key.val)

/-- The bytes of an operation: one command byte (R60). -/
def encode (i : Instr) : List Byte := [encodeByte i]

/-- The bytes of an instruction word `w` of `nbits` bits, bits 7:0 first; at least one byte, and the bits
above `nbits` are 0. Every row of the table has 8 bits, so for them this is one byte. -/
def tableBytes (nbits w : Nat) : List Byte :=
  (List.range (max 1 ((nbits + 7) / 8))).map fun i => BitVec.ofNat 8 (w % 2 ^ nbits / 256 ^ i)

/-- The instruction the decoder reads from the word `w` of `nbits` bits as `spec/opcode_table.json`
numbers them. -/
def decodeTableWord (nbits w : Nat) : Option Instr :=
  match decode (tableBytes nbits w) with
  | .ok i => some i
  | .error _ => none

end Sys2Proof
end

