-- ==== Sys2Proof/Config.lean ====
section
/-! DEFINITION. What is fixed for an engine instance: the constants of `00_scope.md` R8 that a rule reads
as a number, the two open parameters of R9, and the free bytes the spec leaves unspecified
(`93_implementation_defined.md` U2). The sizes of R8 are the lengths of the types in `Word`. -/

namespace Sys2Proof.Config

/-- `SHA_ROUNDS` of R8. -/
def shaRounds : Nat := 64

/-- `B3_ROUNDS` of R8. -/
def b3Rounds : Nat := 7

/-- `B3_COUNTER` of R8, 64 bits. -/
def b3Counter : BitVec 64 := 0

/-- `B3_FLAGS` of R8. -/
def b3Flags : Word := 0

/-- The two open parameters of R9. `cvDerive` is any pure function of the 64 bytes of `S` (R127, U4);
`blockLen` is any 32-bit word (R125, U5). The machine takes them as an argument (`Machine.engine`); only the
operation `B3C` reads them. -/
structure B3Params where
  /-- `B3_CV_DERIVE`. -/
  cvDerive : Operand → Vector Word 8
  /-- `B3_BLOCK_LEN`. -/
  blockLen : Word

/-- The free bytes that a reset leaves in `S` and `B` (R171, U2): no value of it can be proved.
DESIGN CHOICE, log entries 2 and 19: one sequence serves every run and every engine instance. -/
opaque freeByte : Nat → Byte

end Sys2Proof.Config
end

