-- ==== Sys2Proof/Machine/State.lean ====
section
/-! DEFINITION. The state of the engine, as plain data: `S`, `B`, `ERR`, which are the whole architectural
state (`10_state.md` R20 to R24), and three fields of the model's own that carry the host's side of a
run. The reasons a step can stop, and the state after reset (`70_reset_and_hazards.md` R171). -/

namespace Sys2Proof.Machine

/-- The state. `S`, `B`, `ERR` are the spec's (R24); `draws`, `pending`, `returned` are the model's own
(DESIGN CHOICE, log entries 1 and 3). -/
structure State where
  /-- The state register, 64 bytes (R20). -/
  S : Operand
  /-- The block register, 64 bytes (R21). -/
  B : Operand
  /-- The error flag (R22). -/
  ERR : BitVec 1
  /-- MODEL'S OWN: how many free bytes resets have drawn so far (U2). -/
  draws : Nat
  /-- MODEL'S OWN: the host's events not yet performed, the next one first (R47, R181). -/
  pending : List Event
  /-- MODEL'S OWN: what the run's reads returned, oldest first; `none` where the data is unspecified
  (R181, U1). -/
  returned : List (Option (List Byte))
  deriving DecidableEq, Repr

/-- Why the machine stops. -/
inductive Fault where
  /-- Raised by `serve`, for an event that names an access of no bytes. The spec has no such access
  (`n >= 1`, R44, R45). Safe: the model stops where the spec describes no event (log entry 6). -/
  | zeroLengthAccess
  deriving DecidableEq, Repr

/-- Why an instruction has no meaning. -/
inductive Refusal where
  /-- An instruction whose meaning is not written yet, by its mnemonic. Raised by no arm of `exec`: all
  four rows of the table have their meaning. Safe. -/
  | notModelled (mnemonic : String)
  deriving DecidableEq, Repr

/-- Sixty-four free bytes, from number `n` on: a function of `n` alone (DESIGN CHOICE, log entry 19). -/
@[irreducible] def drawOperand (n : Nat) : Operand := Vector.ofFn fun i => Config.freeByte (n + i.val)

/-- The state right after reset (R171): `ERR = 0`, `S` and `B` free bytes (DESIGN CHOICE, log entry 2), and
nothing presented by the host yet. -/
def State.reset : State where
  S := drawOperand 0
  B := drawOperand 64
  ERR := 0
  draws := 128
  pending := []
  returned := []

end Sys2Proof.Machine
end

