-- ==== Sys2Proof/Machine/Operands.lean ====
section
/-! DEFINITION. The operand forms: lanes, halves and words are views of the 64 bytes of `S` or `B`
(`10_state.md` R25, R26), with the conversions between bytes and words and the word arithmetic of
`00_scope.md` R11. -/

namespace Sys2Proof.Machine

/-- `LE32`, R11: `b0` is the least significant byte. -/
def le32 (b0 b1 b2 b3 : Byte) : Word := b3 ++ b2 ++ b1 ++ b0

/-- `BE32`, R11: `b0` is the most significant byte. -/
def be32 (b0 b1 b2 b3 : Byte) : Word := b0 ++ b1 ++ b2 ++ b3

/-- `le32_bytes`, R11. -/
def le32Bytes (w : Word) : Vector Byte 4 :=
  #v[w.extractLsb' 0 8, w.extractLsb' 8 8, w.extractLsb' 16 8, w.extractLsb' 24 8]

/-- `be32_bytes`, R11. -/
def be32Bytes (w : Word) : Vector Byte 4 :=
  #v[w.extractLsb' 24 8, w.extractLsb' 16 8, w.extractLsb' 8 8, w.extractLsb' 0 8]

/-- `rotr32(w, n)` for `0 < n < 32`, R11. -/
def rotr32 (w : Word) (n : Nat) : Word := (w >>> n) ||| (w <<< (32 - n))

/-- `shr32(w, n)`, R11. -/
def shr32 (w : Word) (n : Nat) : Word := w >>> n

/-- A byte string read as one number, little-endian: how a transaction's data is spoken of as a number
(`20_memory.md` R42). -/
def leNumber : List Byte → Nat
  | [] => 0
  | b :: bs => b.toNat + 256 * leNumber bs

/-- `lane(X, j) = X[16j .. 16j+15]`, R25. -/
def lane (X : Operand) (j : Fin 4) : Lane :=
  Vector.ofFn fun i => X[16 * j.val + i.val]

/-- `X` with the lane `j` replaced: `X[16j .. 16j+15] <- v`; the other 48 bytes keep their value (R13). -/
def setLane (X : Operand) (j : Fin 4) (v : Lane) : Operand :=
  Vector.ofFn fun i => if i.val / 16 = j.val then v[i.val % 16] else X[i.val]

/-- The 64 bytes whose four lanes are given, in index order (R25). -/
def joinLanes (ls : Vector Lane 4) : Operand :=
  Vector.ofFn fun i => ls[i.val / 16][i.val % 16]

/-- The sixteen big-endian words of 64 bytes (R26). -/
def beWords (X : Operand) : Vector Word 16 :=
  Vector.ofFn fun t => be32 X[4 * t.val] X[4 * t.val + 1] X[4 * t.val + 2] X[4 * t.val + 3]

/-- The sixteen little-endian words of 64 bytes (R26). -/
def leWords (X : Operand) : Vector Word 16 :=
  Vector.ofFn fun t => le32 X[4 * t.val] X[4 * t.val + 1] X[4 * t.val + 2] X[4 * t.val + 3]

/-- The 64 bytes of sixteen big-endian words. -/
def ofBeWords (ws : Vector Word 16) : Operand :=
  Vector.ofFn fun i => (be32Bytes ws[i.val / 4])[i.val % 4]

/-- The 64 bytes of sixteen little-endian words. -/
def ofLeWords (ws : Vector Word 16) : Operand :=
  Vector.ofFn fun i => (le32Bytes ws[i.val / 4])[i.val % 4]

/-- SHA half `h`: the eight big-endian words of `X[32h .. 32h+31]` (R26, `41_sha256.md` R106). -/
def shaHalf (X : Operand) (h : Fin 2) : Vector Word 8 :=
  Vector.ofFn fun i => (beWords X)[8 * h.val + i.val]

/-- The default of `B3_CV_DERIVE`: the eight little-endian words of `X[0 .. 31]` (`42_blake3.md` R127). -/
def firstHalfWords (X : Operand) : Vector Word 8 :=
  Vector.ofFn fun i => (leWords X)[i.val]

end Sys2Proof.Machine
end

