-- ==== Sys2Proof/Machine/Flags.lean ====
section
/-! DEFINITION. The engine's one flag, `ERR` (`10_state.md` R22), and the register that shows it, `STATUS`
(R27). No operation sets or reads it. -/

namespace Sys2Proof.Machine

/-- `ERR <- 1` (R13, R22). -/
def State.setErr (s : State) : State := { s with ERR := 1 }

/-- What a read of `STATUS` returns: `zext_8(ERR)`, bits 7:1 hardwired 0 (R27). -/
def State.statusByte (s : State) : Byte := s.ERR.setWidth 8

end Sys2Proof.Machine
end

