-- ==== Sys2Proof/Machine/Ops.lean ====
section
/-! DEFINITION. The named operations over the registers and the register address space (`20_memory.md`):
the operand window and its accesses, the write of a result, the one exception
(`60_exceptions.md` R151), reset (`70_reset_and_hazards.md` R170, R171), and the host's event list.
There is no return from an exception: there is no trap, and only reset clears `ERR` (R156). -/

namespace Sys2Proof.Machine

/-- The register address of `CMD` (R41). -/
def addrCmd : Byte := 0x80

/-- The register address of `STATUS` (R41). -/
def addrStatus : Byte := 0x81

/-- The operand window `OPW`: `S` at 0x00 to 0x3F, `B` at 0x40 to 0x7F (R41). -/
def State.opw (s : State) : Vector Byte 128 := s.S ++ s.B

/-- What the window address `k` holds after `data` is written from address `a` on, where it held `old`. -/
def patchByte (a : Nat) (data : List Byte) (k : Nat) (old : Byte) : Byte :=
  if a ≤ k then (data[k - a]?).getD old else old

/-- The 64 bytes at window addresses `base` to `base + 63`, where they were `X`, after that write. -/
@[irreducible] def patchOperand (base a : Nat) (data : List Byte) (X : Operand) : Operand :=
  Vector.ofFn fun i => patchByte a data (base + i.val) X[i]

/-- `OPW[a .. a+n-1] <- data`; the other bytes keep their value (R45). What would fall past 0x7F is not
written; the access check admits no such write. -/
def State.writeWindow (s : State) (a : Nat) (data : List Byte) : State :=
  { s with
    S := patchOperand 0 a data s.S
    B := patchOperand 64 a data s.B }

/-- `MemRead(addr, n)`, R44: the bytes read, or `none` where the access is a contract violation (the data
is then unspecified, U1). It has no side effect on its first two arms. -/
def State.memRead (s : State) (addr : Byte) (n : Nat) : Option (List Byte) :=
  if h : addr.toNat + n ≤ 0x80 then
    some (List.ofFn fun i : Fin n => s.opw[addr.toNat + i.val])
  else if addr = addrStatus ∧ n = 1 then some [s.statusByte]
  else none

/-- `raise ContractViolation(info)`, R151: `ERR <- 1` and nothing else; `info` is not recorded (R150). -/
def State.contractViolation (s : State) : State := s.setErr

/-- An operation's result overwrites `S`, all 64 bytes at once (R20, R88, R107, R126). -/
def State.writeS (s : State) (v : Operand) : State := { s with S := v }

/-- The reset event (R170, R171): `ERR` is 0, `S` and `B` are fresh free bytes, not necessarily those of the
last reset. The spec relates the bytes of one reset to no other's. DESIGN CHOICE, log entries 2 and 19: the model
numbers them by `draws` alone, so two resets with equal `draws` (in two runs, or in two instances of a system)
leave the same unknown bytes. The host's own list of events and returned values is not the engine's and stays
(DESIGN CHOICE, log entry 16). -/
def State.resetEngine (s : State) : State :=
  { s with
    S := drawOperand s.draws
    B := drawOperand (s.draws + 64)
    ERR := 0
    draws := s.draws + 128 }

/-- What a read gives back to the host joins the run's observation (R181). -/
def State.giveBack (s : State) (r : Option (List Byte)) : State :=
  { s with returned := s.returned ++ [r] }

/-- The state with another list of events that the host has still to perform. -/
def State.setPending (s : State) (p : List Event) : State := { s with pending := p }

/-- The host presents one event, before all it has already presented. -/
def State.present (s : State) (e : Event) : State := s.setPending (e :: s.pending)

/-- The next event of the host, and the state in which it is performed: transactions are performed one at
a time in the order the host issues them (R47). -/
def State.nextEvent (s : State) : Option (Event × State) :=
  match s.pending with
  | [] => none
  | e :: rest => some (e, s.setPending rest)

end Sys2Proof.Machine
end

