-- ==== Sys2Proof/Machine/Blake3.lean ====
section
/-! DEFINITION. The BLAKE3 family (`42_blake3.md`): the compression function R120 to R124, the open
parameters R125 and R127 with their defaults, and the meaning of `B3C` (R126). -/

namespace Sys2Proof.Machine

/-- The constants `IV[0..7]`, R120. The engine reads the first four. -/
def b3IV : Vector Word 8 :=
  #v[0x6A09E667, 0xBB67AE85, 0x3C6EF372, 0xA54FF53A, 0x510E527F, 0x9B05688C, 0x1F83D9AB, 0x5BE0CD19]

/-- The message permutation `PERM`, R121. -/
def b3Perm : Vector (Fin 16) 16 := #v[2, 6, 3, 10, 7, 0, 4, 13, 1, 11, 12, 5, 9, 14, 15, 8]

/-- `Permute(m)`, R121. -/
def b3Permute (m : Vector Word 16) : Vector Word 16 := b3Perm.map fun p => m[p]

/-- The quarter-round `G(v, a, b, c, d, mx, my)`, R122: eight assignments in sequence. -/
def b3G (v : Vector Word 16) (a b c d : Fin 16) (mx my : Word) : Vector Word 16 :=
  let v := v.set a (v[a] + v[b] + mx)
  let v := v.set d (rotr32 (v[d] ^^^ v[a]) 16)
  let v := v.set c (v[c] + v[d])
  let v := v.set b (rotr32 (v[b] ^^^ v[c]) 12)
  let v := v.set a (v[a] + v[b] + my)
  let v := v.set d (rotr32 (v[d] ^^^ v[a]) 8)
  let v := v.set c (v[c] + v[d])
  v.set b (rotr32 (v[b] ^^^ v[c]) 7)

/-- One quarter-round of a round: the indices `a, b, c, d` of `v` and the indices of its two message words. -/
structure B3Step where
  a : Fin 16
  b : Fin 16
  c : Fin 16
  d : Fin 16
  mx : Fin 16
  my : Fin 16
  deriving DecidableEq, Repr

/-- The four column steps, R123. -/
def b3Columns : List B3Step :=
  [⟨0, 4, 8, 12, 0, 1⟩, ⟨1, 5, 9, 13, 2, 3⟩, ⟨2, 6, 10, 14, 4, 5⟩, ⟨3, 7, 11, 15, 6, 7⟩]

/-- The four diagonal steps, R123. -/
def b3Diagonals : List B3Step :=
  [⟨0, 5, 10, 15, 8, 9⟩, ⟨1, 6, 11, 12, 10, 11⟩, ⟨2, 7, 8, 13, 12, 13⟩, ⟨3, 4, 9, 14, 14, 15⟩]

/-- One quarter-round with its message words. -/
def b3ApplyStep (m : Vector Word 16) (v : Vector Word 16) (q : B3Step) : Vector Word 16 :=
  b3G v q.a q.b q.c q.d m[q.mx] m[q.my]

/-- `Round(v, m)`, R123: the columns, then the diagonals. -/
def b3Round (v m : Vector Word 16) : Vector Word 16 :=
  b3Diagonals.foldl (b3ApplyStep m) (b3Columns.foldl (b3ApplyStep m) v)

/-- `n` rounds with the permutation between them, R124. The permuted message after the last round is not
used. -/
def b3RoundsFrom : Nat → Vector Word 16 → Vector Word 16 → Vector Word 16
  | 0, v, _ => v
  | n + 1, v, m => b3RoundsFrom n (b3Round v m) (b3Permute m)

/-- The sixteen words the rounds start from, R124. -/
def b3Init (cv : Vector Word 8) (counter : BitVec 64) (blockLen flags : Word) : Vector Word 16 :=
  #v[cv[0], cv[1], cv[2], cv[3], cv[4], cv[5], cv[6], cv[7],
     b3IV[0], b3IV[1], b3IV[2], b3IV[3],
     counter.extractLsb' 0 32, counter.extractLsb' 32 32, blockLen, flags]

/-- The sixteen output words from the words the rounds leave and the chaining value passed in, R124. -/
def b3Output (v : Vector Word 16) (cv : Vector Word 8) : Vector Word 16 :=
  Vector.ofFn fun i =>
    if h : i.val < 8 then v[i.val] ^^^ v[i.val + 8] else v[i.val] ^^^ cv[i.val - 8]

/-- `B3Compress(cv, m, counter, block_len, flags)`, R124. -/
def b3Compress (cv : Vector Word 8) (m : Vector Word 16) (counter : BitVec 64) (blockLen flags : Word) :
    Vector Word 16 :=
  b3Output (b3RoundsFrom Config.b3Rounds (b3Init cv counter blockLen flags) m) cv

/-- The defaults of the open parameters: the first 32 bytes of `S` as eight little-endian words (R127), and
64 (R125). DESIGN CHOICE, log entries 4 and 5. -/
def b3Defaults : Config.B3Params where
  cvDerive := firstHalfWords
  blockLen := 64

/-- `BLAKE3_Compress(state, block)` for any open parameters, R126. -/
@[irreducible] def blake3Compress (p : Config.B3Params) (S B : Operand) : Operand :=
  ofLeWords (b3Compress (p.cvDerive S) (leWords B) Config.b3Counter p.blockLen Config.b3Flags)

/-- `B3C` for any open parameters, R126. -/
def execB3cWith (p : Config.B3Params) (s : State) : Host.Outcome State Fault Refusal :=
  .next (s.writeS (blake3Compress p s.S s.B))

/-- `B3C`, R126, at the defaults of R9 (DESIGN CHOICE, log entries 4 and 5). -/
def execB3c (s : State) : Host.Outcome State Fault Refusal := execB3cWith b3Defaults s

end Sys2Proof.Machine
end

