-- ==== Sys2Proof/Machine/Sha256.lean ====
section
/-! DEFINITION. The SHA-256 family (`41_sha256.md`): the block compression R100 to R104 and the meaning of
`SHAC` (R107). No initial value, no padding, no output transformation (R105). -/

namespace Sys2Proof.Machine

/-- The round constants `K[0..63]`, R100, in index order. -/
def shaK : List Word :=
  [0x428A2F98, 0x71374491, 0xB5C0FBCF, 0xE9B5DBA5, 0x3956C25B, 0x59F111F1, 0x923F82A4, 0xAB1C5ED5,
   0xD807AA98, 0x12835B01, 0x243185BE, 0x550C7DC3, 0x72BE5D74, 0x80DEB1FE, 0x9BDC06A7, 0xC19BF174] ++
  [0xE49B69C1, 0xEFBE4786, 0x0FC19DC6, 0x240CA1CC, 0x2DE92C6F, 0x4A7484AA, 0x5CB0A9DC, 0x76F988DA,
   0x983E5152, 0xA831C66D, 0xB00327C8, 0xBF597FC7, 0xC6E00BF3, 0xD5A79147, 0x06CA6351, 0x14292967] ++
  [0x27B70A85, 0x2E1B2138, 0x4D2C6DFC, 0x53380D13, 0x650A7354, 0x766A0ABB, 0x81C2C92E, 0x92722C85,
   0xA2BFE8A1, 0xA81A664B, 0xC24B8B70, 0xC76C51A3, 0xD192E819, 0xD6990624, 0xF40E3585, 0x106AA070] ++
  [0x19A4C116, 0x1E376C08, 0x2748774C, 0x34B0BCB5, 0x391C0CB3, 0x4ED8AA4A, 0x5B9CCA4F, 0x682E6FF3,
   0x748F82EE, 0x78A5636F, 0x84C87814, 0x8CC70208, 0x90BEFFFA, 0xA4506CEB, 0xBEF9A3F7, 0xC67178F2]

/-- `Ch`, R101. -/
def shaCh (x y z : Word) : Word := (x &&& y) ^^^ (~~~x &&& z)

/-- `Maj`, R101. -/
def shaMaj (x y z : Word) : Word := (x &&& y) ^^^ (x &&& z) ^^^ (y &&& z)

/-- `Σ0`, R101. -/
def shaBigSigma0 (x : Word) : Word := rotr32 x 2 ^^^ rotr32 x 13 ^^^ rotr32 x 22

/-- `Σ1`, R101. -/
def shaBigSigma1 (x : Word) : Word := rotr32 x 6 ^^^ rotr32 x 11 ^^^ rotr32 x 25

/-- `σ0`, R101. -/
def shaSmallSigma0 (x : Word) : Word := rotr32 x 7 ^^^ rotr32 x 18 ^^^ shr32 x 3

/-- `σ1`, R101. -/
def shaSmallSigma1 (x : Word) : Word := rotr32 x 17 ^^^ rotr32 x 19 ^^^ shr32 x 10

/-- The window `W[t+1 .. t+16]` from the window `W[t .. t+15]`: its new last word is
`σ1(W[t+14]) + W[t+9] + σ0(W[t+1]) + W[t]`, which is R102's recurrence at `t + 16`. -/
def shaSlide (w : Vector Word 16) : Vector Word 16 :=
  let new := shaSmallSigma1 w[14] + w[9] + shaSmallSigma0 w[1] + w[0]
  Vector.ofFn fun i => if h : i.val < 15 then w[i.val + 1] else new

/-- `n` words of the message schedule, from a window's first word on. -/
def shaScheduleFrom : Nat → Vector Word 16 → List Word
  | 0, _ => []
  | n + 1, w => w[0] :: shaScheduleFrom n (shaSlide w)

/-- The message schedule `W[0..63]` from the message words `M[0..15]`, R102. -/
def shaSchedule (M : Vector Word 16) : List Word := shaScheduleFrom Config.shaRounds M

/-- The eight working variables of R103. -/
structure ShaVars where
  a : Word
  b : Word
  c : Word
  d : Word
  e : Word
  f : Word
  g : Word
  h : Word
  deriving DecidableEq, Repr

/-- One round of R103, with the round constant and the schedule word of that round. -/
def shaRound (v : ShaVars) (k w : Word) : ShaVars :=
  let t1 := v.h + shaBigSigma1 v.e + shaCh v.e v.f v.g + k + w
  let t2 := shaBigSigma0 v.a + shaMaj v.a v.b v.c
  { a := t1 + t2, b := v.a, c := v.b, d := v.c, e := v.d + t1, f := v.e, g := v.f, h := v.g }

/-- The working variables a chaining value starts the rounds with, R103. -/
def shaInit (H : Vector Word 8) : ShaVars :=
  { a := H[0], b := H[1], c := H[2], d := H[3], e := H[4], f := H[5], g := H[6], h := H[7] }

/-- The 64 rounds, R103. -/
def shaAllRounds (H : Vector Word 8) (M : Vector Word 16) : ShaVars :=
  (shaK.zip (shaSchedule M)).foldl (fun v kw => shaRound v kw.1 kw.2) (shaInit H)

/-- `Sha256Block(H, M)` with its feed-forward, R104. -/
def sha256Block (H : Vector Word 8) (M : Vector Word 16) : Vector Word 8 :=
  let v := shaAllRounds H M
  #v[H[0] + v.a, H[1] + v.b, H[2] + v.c, H[3] + v.d, H[4] + v.e, H[5] + v.f, H[6] + v.g, H[7] + v.h]

/-- `SHA256_Compress(state, block)`, R107: each half compressed with the same message and written where it
was read, big-endian. -/
@[irreducible] def sha256Compress (S B : Operand) : Operand :=
  ofBeWords (sha256Block (shaHalf S 0) (beWords B) ++ sha256Block (shaHalf S 1) (beWords B))

/-- `SHAC`, R107. -/
def execShac (s : State) : Host.Outcome State Fault Refusal :=
  .next (s.writeS (sha256Compress s.S s.B))

end Sys2Proof.Machine
end

