-- ==== Sys2Proof/Machine/Dispatch.lean ====
section
/-! DEFINITION. Which meaning runs for which operation: one arm per constructor of `Instr`. -/

namespace Sys2Proof.Machine

def exec (i : Instr) (s : State) : Host.Outcome State Fault Refusal :=
  match i with
  | .aesc => Sys2Proof.Machine.execAesc s
  | .shac => Sys2Proof.Machine.execShac s
  | .b3c => Sys2Proof.Machine.execB3c s
  | .aesr lane key => Sys2Proof.Machine.execAesr lane key s

end Sys2Proof.Machine
end

