-- ==== Sys2Proof/Machine/Port.lean ====
section
/-! DEFINITION. The host port family (`43_host_port.md`): `Execute` (`30_encoding.md` R61), `HREAD` (R140),
`HWRITE` (R141), and one host event performed as one atomic step (`20_memory.md` R46). The port is written
once, for whatever performs the operations: `exec` at the defaults of the open parameters, `execWith p` for
any of them (`00_scope.md` R9). -/

namespace Sys2Proof.Machine

/-- What performs an operation on the state. -/
abbrev Performer := Instr → State → Host.Outcome State Fault Refusal

/-- The operations for any open parameters (R9, U4, U5). Only `B3C` reads them (`42_blake3.md` R126). -/
def execWith (p : Config.B3Params) : Performer
  | .b3c, s => execB3cWith p s
  | .aesc, s => exec .aesc s
  | .shac, s => exec .shac s
  | .aesr lane key, s => exec (.aesr lane key) s

/-- `Execute(c)`, R61: the operation of the command byte, or the contract violation of an illegal one
(R65). -/
def executeBy (perform : Performer) (c : Byte) (s : State) : Host.Outcome State Fault Refusal :=
  match decodeByte c with
  | .ok i => perform i s
  | .error _ => .next s.contractViolation

/-- `HREAD addr, n`, R140 over `MemRead` R44. A violating read gives back no value (U1; DESIGN CHOICE, log
entry 14). -/
def hread (addr : Byte) (n : Nat) (s : State) : Host.Outcome State Fault Refusal :=
  match s.memRead addr n with
  | some data => .next (s.giveBack (some data))
  | none => .next (s.contractViolation.giveBack none)

/-- `HWRITE addr, data`, R141 over `MemWrite` R45: a write of the operand window, a one-byte write of `CMD`,
or a contract violation that writes nothing. -/
def hwriteBy (perform : Performer) (addr : Byte) (data : List Byte) (s : State) :
    Host.Outcome State Fault Refusal :=
  if addr.toNat + data.length ≤ 0x80 then .next (s.writeWindow addr.toNat data)
  else
    match data with
    | [c] => if addr = addrCmd then executeBy perform c s else .next s.contractViolation
    | _ => .next s.contractViolation

/-- One host event, performed whole (R46). An event that names an access of no bytes is none of the spec's
(log entry 6). -/
def serveBy (perform : Performer) (e : Event) (s : State) : Host.Outcome State Fault Refusal :=
  if e.wellFormed then
    match e with
    | .hread addr n => hread addr n s
    | .hwrite addr data => hwriteBy perform addr data s
    | .reset => .next s.resetEngine
  else .fault .zeroLengthAccess

/-- `Execute(c)` at the defaults of the open parameters. -/
def execute (c : Byte) (s : State) : Host.Outcome State Fault Refusal := executeBy exec c s

/-- `HWRITE` at the defaults of the open parameters. -/
def hwrite (addr : Byte) (data : List Byte) (s : State) : Host.Outcome State Fault Refusal :=
  hwriteBy exec addr data s

/-- One host event at the defaults of the open parameters. -/
def serve (e : Event) (s : State) : Host.Outcome State Fault Refusal := serveBy exec e s

/-- One host event for any open parameters (R9). -/
def serveWith (p : Config.B3Params) (e : Event) (s : State) : Host.Outcome State Fault Refusal :=
  serveBy (execWith p) e s

/-- The next event performed; with none presented the engine holds its state and does nothing
(`60_exceptions.md` R158; `70_reset_and_hazards.md` R181). -/
def stepBy (perform : Performer) (s : State) : Host.Outcome State Fault Refusal :=
  match s.nextEvent with
  | none => .next s
  | some (e, s') => serveBy perform e s'

end Sys2Proof.Machine
end

