-- ==== Sys2Proof/Machine/Step.lean ====
section
/-! DEFINITION. One step: the engine performs the host's next event (`00_scope.md` R7, `20_memory.md` R47). -/

namespace Sys2Proof.Machine

/-- One step, at the defaults of the open parameters (`00_scope.md` R9; DESIGN CHOICE, log entries 4 and 5). -/
def step (s : State) : Host.Outcome State Fault Refusal := stepBy exec s

/-- One step of an engine with any open parameters (R9). -/
def stepWith (p : Config.B3Params) (s : State) : Host.Outcome State Fault Refusal :=
  stepBy (execWith p) s

/-- `s` with the instruction word presented as the host presents a command: one `HWRITE` at `CMD` of its
bytes, before every event already presented, so that the very next step performs it (log entry 10). -/
def State.withFetchWord (s : State) (nbits w : Nat) : State :=
  s.present (.hwrite addrCmd (tableBytes nbits w))

end Sys2Proof.Machine
end

