-- ==== Sys2Proof/Machine/Assembler.lean ====
section
/-! DEFINITION. The assembler lines and pseudo-instructions of `30_encoding.md` R67 and R68 as the host
events they expand to. They add nothing to the engine. -/

namespace Sys2Proof.Machine

/-- `CMD c`: any byte written to `CMD`, legal or not (R67). -/
def asmCmd (c : Byte) : Event := .hwrite addrCmd [c]

/-- `AESC`, `SHAC`, `B3C`, `AESR l, k`: the operation's command byte written to `CMD` (R67). -/
def asmOp (i : Instr) : Event := asmCmd (encodeByte i)

/-- `LDS v`: load the state operand (R68). -/
def asmLds (v : Operand) : Event := .hwrite 0x00 v.toList

/-- `LDB v`: load the block operand (R68). -/
def asmLdb (v : Operand) : Event := .hwrite 0x40 v.toList

/-- `LDSB v`: load both operands in one access (R68). -/
def asmLdsb (v : Vector Byte 128) : Event := .hwrite 0x00 v.toList

/-- `LDL j, v`: load lane `j` of `S` (R68). -/
def asmLdl (j : Fin 4) (v : Lane) : Event := .hwrite (BitVec.ofNat 8 (16 * j.val)) v.toList

/-- `LDK j, v`: load lane `j` of `B` (R68). -/
def asmLdk (j : Fin 4) (v : Lane) : Event := .hwrite (BitVec.ofNat 8 (0x40 + 16 * j.val)) v.toList

/-- `RDS`: read the state (R68). -/
def asmRds : Event := .hread 0x00 64

/-- `RDB`: read the block (R68). -/
def asmRdb : Event := .hread 0x40 64

/-- `RDL j`: read lane `j` of `S` (R68). -/
def asmRdl (j : Fin 4) : Event := .hread (BitVec.ofNat 8 (16 * j.val)) 16

/-- `STAT`: read `STATUS` (R68). -/
def asmStat : Event := .hread addrStatus 1

/-- `CALL op, s, b`: `LDS s ; LDB b ; op ; RDS`, the single call `state′ = op(state, block)` (R68, R69). -/
def asmCall (op : Instr) (st blk : Operand) : List Event :=
  [asmLds st, asmLdb blk, asmOp op, asmRds]

end Sys2Proof.Machine
end

