-- ==== Sys2Proof/Machine/Engine.lean ====
section
/-! DEFINITION. The machine with the open parameters of `00_scope.md` R9 as its argument. `Sys2Proof.core` is
this machine at the spec's defaults (log entries 4 and 5). -/

namespace Sys2Proof.Machine

/-- The engine whose `B3_CV_DERIVE` and `B3_BLOCK_LEN` are `p` (R9; `93_implementation_defined.md` U4, U5). -/
def engine (p : Config.B3Params) : Host.Core where
  State := State
  Fault := Fault
  Refusal := Refusal
  step := stepWith p
  reset := State.reset

end Sys2Proof.Machine
end

