-- ==== Sys2Proof/Machine/System.lean ====
section
/-! DEFINITION. Several engines side by side (`10_state.md` R31, `60_exceptions.md` R159): independent copies
of the state, each with its own host's events, and no interaction. -/

namespace Sys2Proof.Machine

/-- `n` engine instances (log entry 13). DESIGN CHOICE, log entry 19: the instances share the one sequence of
free bytes, so two of them with equal `draws` hold the same bytes after a reset. -/
abbrev System (n : Nat) := Vector State n

/-- The system with instance `k` at the outcome of its step; the others hold their state. -/
def System.place {n : Nat} (sys : System n) (k : Fin n) :
    Host.Outcome State Fault Refusal → Host.Outcome (System n) Fault Refusal
  | .next t => .next (sys.set k t)
  | .fault r => .fault r
  | .refused r => .refused r

/-- Instance `k` takes one step, at the defaults of the open parameters; the others hold their state. Where
that step is a reset its free bytes are chosen by its own `draws` alone (DESIGN CHOICE, log entry 19). -/
def stepInstance {n : Nat} (k : Fin n) (sys : System n) : Host.Outcome (System n) Fault Refusal :=
  sys.place k (step sys[k])

/-- Instance `k` takes one step, each instance with its own open parameters (`00_scope.md` R9). -/
def stepInstanceWith {n : Nat} (p : Fin n → Config.B3Params) (k : Fin n) (sys : System n) :
    Host.Outcome (System n) Fault Refusal :=
  sys.place k (stepWith (p k) sys[k])

end Sys2Proof.Machine
end

