-- ==== Sys2Proof/Safety.lean ====
section
/-! DEFINITION. The terms in which claims are made: the causes of a contract violation
(`60_exceptions.md` R150), the bytes a command reads and writes (`10_state.md` R30), a run as a fold over
the host's events (`20_memory.md` R47), its observation (`70_reset_and_hazards.md` R181), and the
invariant that every step keeps. No step of the machine reads any of this. -/

namespace Sys2Proof.Machine

/-- An access of `n` bytes at `addr` has a byte at an address from `lo` to `hi`. -/
def accessTouches (addr : Byte) (n lo hi : Nat) : Prop :=
  ∃ k, k < n ∧ lo ≤ addr.toNat + k ∧ addr.toNat + k ≤ hi

/-- The labels V1 to V7 of R150. They are not architectural state. -/
inductive Cause where
  /-- Reserved command bits. -/
  | v1
  /-- Operand field on a compress command. -/
  | v2
  /-- Access to the reserved range. -/
  | v3
  /-- Read of `CMD`. -/
  | v4
  /-- Write of `STATUS`. -/
  | v5
  /-- Wide access to `CMD` or `STATUS`. -/
  | v6
  /-- Access leaving the operand window. -/
  | v7
  deriving DecidableEq, Repr

/-- The condition column of R150's table, for an event and a cause. -/
def Event.hasCause : Event → Cause → Prop
  | .hwrite a d, .v1 => a.toNat = 0x80 ∧ ∃ c : Byte, d = [c] ∧ c.toNat / 64 ≠ 0
  | .hwrite a d, .v2 =>
    a.toNat = 0x80 ∧ ∃ c : Byte, d = [c] ∧ c.toNat / 64 = 0 ∧ c.toNat % 4 ≠ 3 ∧ c.toNat / 4 % 16 ≠ 0
  | .hread a n, .v3 => accessTouches a n 0x82 0xFF ∨ a.toNat + n > 0x100
  | .hwrite a d, .v3 => accessTouches a d.length 0x82 0xFF ∨ a.toNat + d.length > 0x100
  | .hread a n, .v4 => accessTouches a n 0x80 0x80
  | .hwrite a d, .v5 => accessTouches a d.length 0x81 0x81
  | .hread a n, .v6 => a.toNat = 0x81 ∧ n > 1
  | .hwrite a d, .v6 => a.toNat = 0x80 ∧ d.length > 1
  | .hread a n, .v7 => a.toNat ≤ 0x7F ∧ a.toNat + n > 0x80
  | .hwrite a d, .v7 => a.toNat ≤ 0x7F ∧ a.toNat + d.length > 0x80
  | _, _ => False

/-- The event is a contract violation: some cause of R150 holds of it. -/
def Event.violates (e : Event) : Prop := ∃ c, e.hasCause c

/-- The window addresses a command reads (R30, `70_reset_and_hazards.md` R173), `B3C` at the default
`B3_CV_DERIVE`. -/
def readsByte : Instr → Nat → Prop
  | .aesc, k => k < 128
  | .shac, k => k < 128
  | .b3c, k => k < 32 ∨ (64 ≤ k ∧ k < 128)
  | .aesr lane key, k => k / 16 = lane.val ∨ k / 16 = 4 + key.val

/-- The bytes of `S` a command writes (R30). -/
def writesByte : Instr → Nat → Prop
  | .aesr lane _, k => k / 16 = lane.val
  | _, k => k < 64

/-- The fold of a list of events over the engine's performance of one (R47), stopping where it stops. -/
def performAllBy (perform : Performer) : List Event → State → Host.Outcome State Fault Refusal
  | [], s => .next s
  | e :: es, s =>
    match serveBy perform e s with
    | .next t => performAllBy perform es t
    | .fault r => .fault r
    | .refused r => .refused r

/-- That fold at the defaults of the open parameters. -/
def performAll (es : List Event) (s : State) : Host.Outcome State Fault Refusal := performAllBy exec es s

/-- That fold for any open parameters (`00_scope.md` R9). -/
def performAllWith (p : Config.B3Params) (es : List Event) (s : State) : Host.Outcome State Fault Refusal :=
  performAllBy (execWith p) es s

/-- What a run shows: the values its reads returned and the final `S`, `B`, `ERR` (R181). -/
def State.observation (s : State) : List (Option (List Byte)) × Operand × Operand × BitVec 1 :=
  (s.returned, s.S, s.B, s.ERR)

/-- The two states differ at most in `S`: what every command leaves unchanged (R30), the model's own fields
among it. -/
def State.sameButS (s t : State) : Prop :=
  t.B = s.B ∧ t.ERR = s.ERR ∧ t.draws = s.draws ∧ t.pending = s.pending ∧ t.returned = s.returned

/-- Multiplication in GF(2^8) (`00_scope.md` R12): the sum of `a·x^i` over the bits `i` of `b`. The engine
has only its cases 2 and 3; the S-box law of `40_aes.md` R81 is stated with it. -/
def gfMul (a b : Byte) : Byte :=
  (List.range 8).foldl (fun acc i => if b.getLsbD i then acc ^^^ xtime^[i] a else acc) 0

/-- The table of `42_blake3.md` R124: which message word stands at each place in each round. -/
def b3MessageIndex : Vector (Vector (Fin 16) 16) 7 := #v[
  #v[0, 1, 2, 3, 4, 5, 6, 7, 8, 9, 10, 11, 12, 13, 14, 15],
  #v[2, 6, 3, 10, 7, 0, 4, 13, 1, 11, 12, 5, 9, 14, 15, 8],
  #v[3, 4, 10, 12, 13, 2, 7, 14, 6, 5, 9, 0, 11, 15, 8, 1],
  #v[10, 7, 12, 9, 14, 3, 13, 15, 4, 0, 11, 2, 5, 8, 1, 6],
  #v[12, 13, 9, 11, 15, 10, 14, 8, 7, 2, 5, 3, 0, 1, 6, 4],
  #v[9, 14, 11, 5, 8, 12, 15, 1, 13, 3, 0, 10, 2, 6, 4, 7],
  #v[11, 15, 5, 0, 1, 9, 8, 6, 14, 10, 2, 12, 3, 4, 7, 13]]

/-- The 128 bytes of the operand window as a list, `S` first (`20_memory.md` R41). -/
def State.window (s : State) : List Byte := s.S.toList ++ s.B.toList

/-- The invariant: every event the host has presented is one the spec has, every read that returned data
returned 1 to 128 bytes, and every reset has drawn whole sets of 128 free bytes. -/
def State.Inv (s : State) : Prop :=
  (∀ e ∈ s.pending, e.wellFormed = true) ∧
  (∀ d, some d ∈ s.returned → 1 ≤ d.length ∧ d.length ≤ 128) ∧
  s.draws % 128 = 0

end Sys2Proof.Machine
end

