-- ==== Sys2Proof/Certificates/Slice0/Obligations.lean ====
section
/-! DEFINITION. The statements for the provers. Each docstring names the rules of `spec/` it formalises. -/

open Sys2Proof Sys2Proof.Machine

/-- `30_encoding.md` R60, R64, R65: words written out from the spec's bit diagram and opcode map. -/
def Obligations.DecodesWrittenWords : Prop :=
  decode [0b00000000] = .ok .aesc ∧
  decode [0b00000001] = .ok .shac ∧
  decode [0b00000010] = .ok .b3c ∧
  decode [0b00000111] = .ok (.aesr 1 0) ∧
  decode [0b00010011] = .ok (.aesr 0 1) ∧
  decode [0b00011011] = .ok (.aesr 2 1) ∧
  decode [0b00111111] = .ok (.aesr 3 3) ∧
  decode [0b00000100] = .error .operandField ∧
  decode [0b00111110] = .error .operandField ∧
  decode [0b01000011] = .error .reservedBits ∧
  decode [0b11111111] = .error .reservedBits ∧
  decode [] = .error .notOneByte ∧
  decode [0x00, 0x01] = .error .notOneByte

/-- `30_encoding.md` R60 to R64: the bytes that decode to an operation are exactly its encoding. Every `Instr`
is well formed, its fields being 0 to 3 by type. -/
def Obligations.DecodeExactlyInvertsEncode : Prop :=
  ∀ (bs : List Byte) (i : Instr), decode bs = .ok i ↔ bs = encode i

/-- `30_encoding.md` R61: decode and dispatch of every byte, by its fields as numbers. -/
def Obligations.ExecuteFollowsDecodeRule : Prop :=
  ∀ (c : Byte) (s : State),
    execute c s =
      if c.toNat / 64 ≠ 0 then .next { s with ERR := 1 }
      else if c.toNat % 4 ≠ 3 ∧ (c.toNat / 4 % 4 ≠ 0 ∨ c.toNat / 16 % 4 ≠ 0) then .next { s with ERR := 1 }
      else if c.toNat % 4 = 0 then exec .aesc s
      else if c.toNat % 4 = 1 then exec .shac s
      else if c.toNat % 4 = 2 then exec .b3c s
      else exec (.aesr (Fin.ofNat 4 (c.toNat / 4)) (Fin.ofNat 4 (c.toNat / 16))) s

/-- `30_encoding.md` R65: the two classes of illegal bytes, their sizes, and what they do. -/
def Obligations.IllegalCommandOnlySetsErr : Prop :=
  (∀ (c : Byte) (s : State),
    (c.toNat / 64 ≠ 0 ∨ (c.toNat / 64 = 0 ∧ c.toNat % 4 ≠ 3 ∧ c.toNat / 4 % 16 ≠ 0)) →
      execute c s = .next { s with ERR := 1 }) ∧
  (∀ c : Byte, ¬ (c.toNat / 64 ≠ 0 ∨ (c.toNat / 64 = 0 ∧ c.toNat % 4 ≠ 3 ∧ c.toNat / 4 % 16 ≠ 0)) →
      ∃ i, encodeByte i = c) ∧
  ((List.range 256).filter fun n => n / 64 ≠ 0).length = 192 ∧
  ((List.range 256).filter fun n => n / 64 = 0 ∧ n % 4 ≠ 3 ∧ n / 4 % 16 ≠ 0).length = 45

/-- `00_scope.md` R7, `20_memory.md` R46, R47, `60_exceptions.md` R158: a step performs the next event, runs the
decoded operation when that is a command, and with nothing presented holds the state. -/
def Obligations.StepRunsDecodedInstruction : Prop :=
  (∀ (s : State) (rest : List Event) (bs : List Byte) (i : Instr),
    s.pending = .hwrite 0x80 bs :: rest → decode bs = .ok i →
      step s = exec i (s.setPending rest)) ∧
  (∀ (s : State) (e : Event) (rest : List Event),
    s.pending = e :: rest → step s = serve e (s.setPending rest)) ∧
  (∀ s : State, s.pending = [] → step s = .next s)

/-- `30_encoding.md` R64, R67 (log entry 10): an operation's table word, presented to any state, is what the
next step runs. -/
def Obligations.PresentedWordRunsNext : Prop :=
  ∀ (s : State) (i : Instr),
    decodeTableWord 8 (encodeByte i).toNat = some i ∧
    step (s.withFetchWord 8 (encodeByte i).toNat) = exec i s

/-- `00_scope.md` R11: the words of four bytes, the four bytes of a word, rotation, shift and wrapping sum,
as numbers. -/
def Obligations.WordArithmeticAsNumbers : Prop :=
  (∀ b0 b1 b2 b3 : Byte,
    (le32 b0 b1 b2 b3).toNat = b0.toNat + 2 ^ 8 * b1.toNat + 2 ^ 16 * b2.toNat + 2 ^ 24 * b3.toNat ∧
    (be32 b0 b1 b2 b3).toNat = 2 ^ 24 * b0.toNat + 2 ^ 16 * b1.toNat + 2 ^ 8 * b2.toNat + b3.toNat ∧
    le32Bytes (le32 b0 b1 b2 b3) = #v[b0, b1, b2, b3] ∧
    be32Bytes (be32 b0 b1 b2 b3) = #v[b0, b1, b2, b3]) ∧
  (∀ (w : Word) (n : Nat), 0 < n → n < 32 →
    (rotr32 w n).toNat = w.toNat / 2 ^ n + 2 ^ (32 - n) * (w.toNat % 2 ^ n) ∧
    (shr32 w n).toNat = w.toNat / 2 ^ n) ∧
  (∀ w x : Word, (w + x).toNat = (w.toNat + x.toNat) % 2 ^ 32)

/-- `20_memory.md` R42: a transaction's data as one number, the byte at the lowest address the least
significant. -/
def Obligations.LeNumberIsTheWeightedSum : Prop :=
  ∀ d : List Byte, leNumber d = ((List.range d.length).map fun i => (d.getD i 0).toNat * 256 ^ i).sum

/-- `00_scope.md` R12: `xtime` as a number, its two examples, and that it respects addition in the field. -/
def Obligations.XtimeIsMultiplicationByX : Prop :=
  (∀ a : Byte, (xtime a).toNat =
    if a.toNat < 128 then 2 * a.toNat % 256 else (2 * a.toNat % 256) ^^^ 0x1B) ∧
  xtime 0x57 = 0xAE ∧ xtime 0xAE = 0x47 ∧
  (∀ a b : Byte, xtime (a ^^^ b) = xtime a ^^^ xtime b)

/-- `40_aes.md` R81: the S-box is a permutation, and each entry is the affine map of the field inverse. -/
def Obligations.SboxIsInverseThenAffine : Prop :=
  Function.Bijective sbox ∧
  ∀ a : Byte, ∃ b : Byte,
    (a = 0 → b = 0) ∧ (a ≠ 0 → gfMul a b = 1) ∧
    sbox a = b ^^^ b.rotateLeft 1 ^^^ b.rotateLeft 2 ^^^ b.rotateLeft 3 ^^^ b.rotateLeft 4 ^^^ 0x63

/-- `40_aes.md` R82 to R86: every byte of an AES round from the bytes of the lane and the key. -/
def Obligations.AesRoundByBytes : Prop :=
  ∀ (x k : Lane) (c : Fin 4),
    let a (r : Fin 4) : Byte := sbox x[r.val + 4 * ((c.val + r.val) % 4)]
    (aesRound x k)[4 * c.val] = xtime (a 0) ^^^ (xtime (a 1) ^^^ a 1) ^^^ a 2 ^^^ a 3 ^^^ k[4 * c.val] ∧
    (aesRound x k)[4 * c.val + 1] =
      a 0 ^^^ xtime (a 1) ^^^ (xtime (a 2) ^^^ a 2) ^^^ a 3 ^^^ k[4 * c.val + 1] ∧
    (aesRound x k)[4 * c.val + 2] =
      a 0 ^^^ a 1 ^^^ xtime (a 2) ^^^ (xtime (a 3) ^^^ a 3) ^^^ k[4 * c.val + 2] ∧
    (aesRound x k)[4 * c.val + 3] =
      (xtime (a 0) ^^^ a 0) ^^^ a 1 ^^^ a 2 ^^^ xtime (a 3) ^^^ k[4 * c.val + 3]

/-- `40_aes.md` R86: for a fixed key the round is a bijection on the lane. -/
def Obligations.AesRoundIsBijective : Prop :=
  ∀ k : Lane, Function.Bijective fun x : Lane => aesRound x k

/-- `40_aes.md` R87: `AESR l, k` from every state: the lane, its frame, its command byte, and the zero corner. -/
def Obligations.AesrWritesOneRound : Prop :=
  (∀ (l k : Fin 4) (s : State), ∃ t : State,
    exec (.aesr l k) s = .next t ∧
    lane t.S l = aesRound (lane s.S l) (lane s.B k) ∧
    (∀ (i : Nat) (_ : i < 64), i / 16 ≠ l.val → t.S[i] = s.S[i]) ∧
    s.sameButS t ∧
    (encodeByte (.aesr l k)).toNat = 0x03 + 4 * l.val + 16 * k.val) ∧
  aesRound (Vector.replicate 16 0x00) (Vector.replicate 16 0x00) = Vector.replicate 16 0x63

/-- `40_aes.md` R88: `AESC` from every state: four rounds on each lane with keys in lane order, then XOR
with the original lane, and its frame. -/
def Obligations.AescFourRoundsThenXor : Prop :=
  ∀ s : State, ∃ t : State,
    exec .aesc s = .next t ∧
    (∀ (j : Fin 4) (i : Nat) (_ : i < 16),
      t.S[16 * j.val + i] =
        (aesRound (aesRound (aesRound (aesRound (lane s.S j) (lane s.B 0)) (lane s.B 1)) (lane s.B 2))
          (lane s.B 3))[i] ^^^ s.S[16 * j.val + i]) ∧
    s.sameButS t ∧
    encodeByte .aesc = 0x00

/-- `40_aes.md` R88 corner cases, `70_reset_and_hazards.md` R178: a result lane is the same function of its own
lane and of `B`, for every lane: lanes never mix, and equal lanes give equal results. -/
def Obligations.AescLanesNeverMix : Prop :=
  ∀ (s s' t t' : State) (j j' : Fin 4),
    exec .aesc s = .next t → exec .aesc s' = .next t' → s.B = s'.B →
    lane s.S j = lane s'.S j' → lane t.S j = lane t'.S j'

/-- `40_aes.md` R89: the sixteen `AESR` commands, the lanes in any order and the keys in order inside each lane,
run as steps, then XORed with the old state, give what `AESC` gives; the key order matters. -/
def Obligations.AescFromSixteenAesr : Prop :=
  (∀ (s : State) (rest : List Event) (js : List (Fin 4)), js.Perm [0, 1, 2, 3] →
    ∃ t u : State,
      Host.Core.run core 16
        (s.setPending ((js.flatMap fun j => [0, 1, 2, 3].map fun k => asmOp (.aesr j k)) ++ rest)) =
          .next t ∧
      exec .aesc (s.setPending rest) = .next u ∧
      (∀ (i : Nat) (_ : i < 64), u.S[i] = t.S[i] ^^^ s.S[i]) ∧
      u.sameButS t) ∧
  (∃ x k0 k1 : Lane, aesRound (aesRound x k0) k1 ≠ aesRound (aesRound x k1) k0)

/-- `41_sha256.md` R102, R103, R104: `Sha256Block` from a schedule and working variables that meet the
recurrences. Its constants and its six functions are pinned by the two statements that follow. -/
def Obligations.Sha256BlockMeetsRecurrences : Prop :=
  shaK.length = 64 ∧
  ∀ (H : Vector Word 8) (M : Vector Word 16), ∃ (W : Nat → Word) (V : Nat → ShaVars),
    (∀ (t : Nat) (_ : t < 16), W t = M[t]) ∧
    (∀ t : Nat, 16 ≤ t → t < 64 →
      W t = shaSmallSigma1 (W (t - 2)) + W (t - 7) + shaSmallSigma0 (W (t - 15)) + W (t - 16)) ∧
    V 0 = ⟨H[0], H[1], H[2], H[3], H[4], H[5], H[6], H[7]⟩ ∧
    (∀ t : Nat, t < 64 →
      let v := V t
      let t1 := v.h + shaBigSigma1 v.e + shaCh v.e v.f v.g + shaK.getD t 0 + W t
      let t2 := shaBigSigma0 v.a + shaMaj v.a v.b v.c
      V (t + 1) = ⟨t1 + t2, v.a, v.b, v.c, v.d + t1, v.e, v.f, v.g⟩) ∧
    sha256Block H M =
      #v[H[0] + (V 64).a, H[1] + (V 64).b, H[2] + (V 64).c, H[3] + (V 64).d,
         H[4] + (V 64).e, H[5] + (V 64).f, H[6] + (V 64).g, H[7] + (V 64).h]

/-- `41_sha256.md` R100: the round constants, in the rule's rows of four, and what the rule says they are: the
first 32 bits of the fractional parts of the cube roots of the first 64 primes. -/
def Obligations.ShaConstantsAreCubeRootBits : Prop :=
  shaK =
    [0x428A2F98, 0x71374491, 0xB5C0FBCF, 0xE9B5DBA5] ++ [0x3956C25B, 0x59F111F1, 0x923F82A4, 0xAB1C5ED5] ++
    [0xD807AA98, 0x12835B01, 0x243185BE, 0x550C7DC3] ++ [0x72BE5D74, 0x80DEB1FE, 0x9BDC06A7, 0xC19BF174] ++
    [0xE49B69C1, 0xEFBE4786, 0x0FC19DC6, 0x240CA1CC] ++ [0x2DE92C6F, 0x4A7484AA, 0x5CB0A9DC, 0x76F988DA] ++
    [0x983E5152, 0xA831C66D, 0xB00327C8, 0xBF597FC7] ++ [0xC6E00BF3, 0xD5A79147, 0x06CA6351, 0x14292967] ++
    [0x27B70A85, 0x2E1B2138, 0x4D2C6DFC, 0x53380D13] ++ [0x650A7354, 0x766A0ABB, 0x81C2C92E, 0x92722C85] ++
    [0xA2BFE8A1, 0xA81A664B, 0xC24B8B70, 0xC76C51A3] ++ [0xD192E819, 0xD6990624, 0xF40E3585, 0x106AA070] ++
    [0x19A4C116, 0x1E376C08, 0x2748774C, 0x34B0BCB5] ++ [0x391C0CB3, 0x4ED8AA4A, 0x5B9CCA4F, 0x682E6FF3] ++
    [0x748F82EE, 0x78A5636F, 0x84C87814, 0x8CC70208] ++ [0x90BEFFFA, 0xA4506CEB, 0xBEF9A3F7, 0xC67178F2] ∧
  (let primes := (List.range 312).filter fun q => 2 ≤ q ∧ ∀ d ∈ List.range q, 2 ≤ d → q % d ≠ 0
   primes.length = 64 ∧
   ∀ t : Fin 64, ∃ m : Fin 7,
    let root := m.val * 2 ^ 32 + (shaK.getD t 0).toNat
    root ^ 3 ≤ primes.getD t 0 * 2 ^ 96 ∧ primes.getD t 0 * 2 ^ 96 < (root + 1) ^ 3)

/-- `41_sha256.md` R101: the six functions on words, spelled out. `rotr32` and `shr32` are pinned as numbers by
`WordArithmeticAsNumbers`. -/
def Obligations.ShaFunctionsAsWritten : Prop :=
  ∀ x y z : Word,
    shaCh x y z = (x &&& y) ^^^ (~~~x &&& z) ∧
    shaMaj x y z = (x &&& y) ^^^ (x &&& z) ^^^ (y &&& z) ∧
    shaBigSigma0 x = rotr32 x 2 ^^^ rotr32 x 13 ^^^ rotr32 x 22 ∧
    shaBigSigma1 x = rotr32 x 6 ^^^ rotr32 x 11 ^^^ rotr32 x 25 ∧
    shaSmallSigma0 x = rotr32 x 7 ^^^ rotr32 x 18 ^^^ shr32 x 3 ∧
    shaSmallSigma1 x = rotr32 x 17 ^^^ rotr32 x 19 ^^^ shr32 x 10

/-- `41_sha256.md` R106, R107: `SHAC` from every state: each half compressed with the same message, big-endian
throughout, and its frame. -/
def Obligations.ShacCompressesEachHalf : Prop :=
  ∀ s : State, ∃ t : State,
    exec .shac s = .next t ∧
    (∀ (h : Fin 2) (i : Nat) (_ : i < 8),
      be32 t.S[32 * h.val + 4 * i] t.S[32 * h.val + 4 * i + 1] t.S[32 * h.val + 4 * i + 2]
          t.S[32 * h.val + 4 * i + 3] =
        (sha256Block
          (Vector.ofFn fun n : Fin 8 =>
            be32 s.S[32 * h.val + 4 * n.val] s.S[32 * h.val + 4 * n.val + 1]
              s.S[32 * h.val + 4 * n.val + 2] s.S[32 * h.val + 4 * n.val + 3])
          (Vector.ofFn fun n : Fin 16 =>
            be32 s.B[4 * n.val] s.B[4 * n.val + 1] s.B[4 * n.val + 2] s.B[4 * n.val + 3]))[i]) ∧
    s.sameButS t ∧
    encodeByte .shac = 0x01

/-- `41_sha256.md` R107 corner cases, `70_reset_and_hazards.md` R178: a result half is the same function of its
own half and of `B`, for both halves. -/
def Obligations.ShacHalvesNeverMix : Prop :=
  ∀ (s s' t t' : State) (h h' : Fin 2),
    exec .shac s = .next t → exec .shac s' = .next t' → s.B = s'.B →
    shaHalf s.S h = shaHalf s'.S h' → shaHalf t.S h = shaHalf t'.S h'

/-- `41_sha256.md` R108: after `LDS v` and `LDB P ; SHAC` for each block of any message, run as steps from any
state, each half of `S` holds the chain of block compressions from its half of `v`. No initial value and no padding
stands in the statement: they are the host's (R105), and R108 says what the chain is with them. -/
def Obligations.ChainedShacChainsTheBlocks : Prop :=
  ∀ (s : State) (v : Operand) (blocks : List Operand) (rest : List Event), ∃ t : State,
    Host.Core.run core (1 + 2 * blocks.length)
      (s.setPending (asmLds v :: ((blocks.flatMap fun P => [asmLdb P, asmOp .shac]) ++ rest))) = .next t ∧
    (∀ h : Fin 2,
      shaHalf t.S h = blocks.foldl (fun H P => sha256Block H (beWords P)) (shaHalf v h)) ∧
    t.ERR = s.ERR ∧ t.pending = rest ∧ t.returned = s.returned

/-- `42_blake3.md` R122: the quarter-round on four different indices, assignment by assignment, and the twelve
words it leaves. -/
def Obligations.B3QuarterRoundByWords : Prop :=
  ∀ (v : Vector Word 16) (a b c d : Fin 16) (mx my : Word), [a, b, c, d].Nodup →
    let a1 := v[a] + v[b] + mx
    let d1 := rotr32 (v[d] ^^^ a1) 16
    let c1 := v[c] + d1
    let b1 := rotr32 (v[b] ^^^ c1) 12
    let a2 := a1 + b1 + my
    let d2 := rotr32 (d1 ^^^ a2) 8
    let c2 := c1 + d2
    let b2 := rotr32 (b1 ^^^ c2) 7
    let r := b3G v a b c d mx my
    r[a] = a2 ∧ r[b] = b2 ∧ r[c] = c2 ∧ r[d] = d2 ∧
    ∀ i : Fin 16, i ∉ [a, b, c, d] → r[i] = v[i]

/-- `42_blake3.md` R123: a round is its eight quarter-rounds in sequence, and the four of one column may be taken
in any order. -/
def Obligations.B3RoundStepsCommute : Prop :=
  ∀ m v : Vector Word 16,
    (b3Round v m =
      let v := b3G v 0 4 8 12 m[0] m[1]
      let v := b3G v 1 5 9 13 m[2] m[3]
      let v := b3G v 2 6 10 14 m[4] m[5]
      let v := b3G v 3 7 11 15 m[6] m[7]
      let v := b3G v 0 5 10 15 m[8] m[9]
      let v := b3G v 1 6 11 12 m[10] m[11]
      let v := b3G v 2 7 8 13 m[12] m[13]
      b3G v 3 4 9 14 m[14] m[15]) ∧
    (∀ p : List B3Step, p.Perm b3Columns → p.foldl (b3ApplyStep m) v = b3Columns.foldl (b3ApplyStep m) v) ∧
    (∀ p : List B3Step, p.Perm b3Diagonals →
      p.foldl (b3ApplyStep m) v = b3Diagonals.foldl (b3ApplyStep m) v)

/-- `42_blake3.md` R121, R124: `B3Compress` with all five inputs, from word vectors that meet the rule's loop, with
the rule's table of the message words of each round. -/
def Obligations.B3CompressMeetsLoop : Prop :=
  ∀ (cv : Vector Word 8) (m : Vector Word 16) (counter : BitVec 64) (blockLen flags : Word),
    ∃ V M : Nat → Vector Word 16,
      (∀ (i : Nat) (_ : i < 8), (V 0)[i] = cv[i]) ∧
      (V 0)[8] = 0x6A09E667 ∧ (V 0)[9] = 0xBB67AE85 ∧ (V 0)[10] = 0x3C6EF372 ∧ (V 0)[11] = 0xA54FF53A ∧
      (V 0)[12].toNat = counter.toNat % 2 ^ 32 ∧ (V 0)[13].toNat = counter.toNat / 2 ^ 32 ∧
      (V 0)[14] = blockLen ∧ (V 0)[15] = flags ∧
      M 0 = m ∧
      (∀ (r : Nat) (i : Fin 16), r < 6 → (M (r + 1))[i] = (M r)[b3Perm[i]]) ∧
      (∀ (r : Fin 7) (i : Fin 16), (M r.val)[i] = m[b3MessageIndex[r][i]]) ∧
      (∀ r : Nat, r < 7 → V (r + 1) = b3Round (V r) (M r)) ∧
      (∀ (i : Nat) (_ : i < 8),
        (b3Compress cv m counter blockLen flags)[i] = (V 7)[i] ^^^ (V 7)[i + 8] ∧
        (b3Compress cv m counter blockLen flags)[i + 8] = (V 7)[i + 8] ^^^ cv[i])

/-- `42_blake3.md` R126 with the open parameters of `00_scope.md` R9 as arguments: `B3C` from every state, for
every `B3_CV_DERIVE` and every `B3_BLOCK_LEN`, and its frame. -/
def Obligations.B3cForEveryParameters : Prop :=
  ∀ (p : Config.B3Params) (s : State), ∃ t : State,
    execB3cWith p s = .next t ∧
    (∀ (i : Nat) (_ : i < 16),
      le32 t.S[4 * i] t.S[4 * i + 1] t.S[4 * i + 2] t.S[4 * i + 3] =
        (b3Compress (p.cvDerive s.S)
          (Vector.ofFn fun n : Fin 16 =>
            le32 s.B[4 * n.val] s.B[4 * n.val + 1] s.B[4 * n.val + 2] s.B[4 * n.val + 3])
          0 p.blockLen 0)[i]) ∧
    s.sameButS t ∧
    encodeByte .b3c = 0x02

/-- `42_blake3.md` R125 and R127, the spec's defaults (log entries 4 and 5): the machine's `B3C` from every
state. -/
def Obligations.B3cAtTheDefaults : Prop :=
  ∀ s : State, ∃ t : State,
    exec .b3c s = .next t ∧
    (∀ (i : Nat) (_ : i < 16),
      le32 t.S[4 * i] t.S[4 * i + 1] t.S[4 * i + 2] t.S[4 * i + 3] =
        (b3Compress
          (Vector.ofFn fun n : Fin 8 =>
            le32 s.S[4 * n.val] s.S[4 * n.val + 1] s.S[4 * n.val + 2] s.S[4 * n.val + 3])
          (Vector.ofFn fun n : Fin 16 =>
            le32 s.B[4 * n.val] s.B[4 * n.val + 1] s.B[4 * n.val + 2] s.B[4 * n.val + 3])
          0 64 0)[i]) ∧
    s.sameButS t

/-- `42_blake3.md` R127, `70_reset_and_hazards.md` R178 (a), at the spec's default of `B3_CV_DERIVE` (log entry
4): `B3C` does not read `S[32..63]`. -/
def Obligations.B3cIgnoresUpperHalfByDefault : Prop :=
  ∀ s s' t t' : State,
    exec .b3c s = .next t → exec .b3c s' = .next t' → s.B = s'.B →
    (∀ (i : Nat) (_ : i < 32), s.S[i] = s'.S[i]) → t.S = t'.S

/-- `10_state.md` R24, R30, `40_aes.md` R90, `41_sha256.md` R109, `42_blake3.md` R128: what a command writes
depends on nothing but the window bytes it reads. -/
def Obligations.CommandDependsOnlyOnBytesItReads : Prop :=
  ∀ (i : Instr) (s s' t t' : State),
    exec i s = .next t → exec i s' = .next t' →
    (∀ (k : Nat) (_ : k < 128), readsByte i k → s.opw[k] = s'.opw[k]) →
    ∀ (k : Nat) (_ : k < 64), writesByte i k → t.S[k] = t'.S[k]

/-- `10_state.md` R30, `60_exceptions.md` R152: every command, from every state, answers a next state, and
changes no byte but those it writes. -/
def Obligations.EveryCommandCompletesInItsFrame : Prop :=
  ∀ (i : Instr) (s : State), ∃ t : State,
    exec i s = .next t ∧
    (∀ (k : Nat) (_ : k < 64), ¬ writesByte i k → t.S[k] = s.S[k]) ∧
    s.sameButS t

/-- `10_state.md` R22: how each event moves `ERR`, and that no command reads it. -/
def Obligations.ErrIsStickyUntilReset : Prop :=
  (∀ (s t : State) (e : Event) (rest : List Event), s.pending = e :: rest → step s = .next t →
    (e = .reset → t.ERR = 0) ∧
    (e ≠ .reset → e.violates → t.ERR = 1) ∧
    (e ≠ .reset → ¬ e.violates → t.ERR = s.ERR)) ∧
  (∀ (i : Instr) (s : State) (b : BitVec 1), ∃ t : State,
    exec i s = .next t ∧ exec i { s with ERR := b } = .next { t with ERR := b }) ∧
  State.reset.ERR = 0

/-- `60_exceptions.md` R150: the causes V3 to V7 together are exactly the third arms of `MemRead` and `MemWrite`;
V1 and V2 together are exactly the one-byte writes of `CMD` whose byte does not decode; and so the violations are
these and no others. -/
def Obligations.CausesAreTheThirdArms : Prop :=
  (∀ (a : Byte) (n : Nat), n ≠ 0 →
    ((∃ c ∈ [Cause.v3, .v4, .v5, .v6, .v7], (Event.hread a n).hasCause c) ↔
      ¬ a.toNat + n ≤ 0x80 ∧ ¬ (a.toNat = 0x81 ∧ n = 1))) ∧
  (∀ (a : Byte) (d : List Byte), d ≠ [] →
    ((∃ c ∈ [Cause.v3, .v4, .v5, .v6, .v7], (Event.hwrite a d).hasCause c) ↔
      ¬ a.toNat + d.length ≤ 0x80 ∧ ¬ (a.toNat = 0x80 ∧ d.length = 1))) ∧
  (∀ (a : Byte) (d : List Byte),
    ((∃ c ∈ [Cause.v1, .v2], (Event.hwrite a d).hasCause c) ↔
      a.toNat = 0x80 ∧ d.length = 1 ∧ ¬ ∃ i, decode d = .ok i)) ∧
  (∀ (a : Byte) (n : Nat), n ≠ 0 →
    ((Event.hread a n).violates ↔ ¬ a.toNat + n ≤ 0x80 ∧ ¬ (a.toNat = 0x81 ∧ n = 1))) ∧
  (∀ (a : Byte) (d : List Byte), d ≠ [] →
    ((Event.hwrite a d).violates ↔
      ¬ a.toNat + d.length ≤ 0x80 ∧ ¬ (a.toNat = 0x80 ∧ ∃ i, decode d = .ok i))) ∧
  ¬ Event.reset.violates

/-- `60_exceptions.md` R151: the effect of a contract violation is `ERR <- 1` and nothing else, and the engine goes
on. THE MODEL'S CHOICE, log entry 14 (with entry 1): the data of a violating read, unspecified by
`93_implementation_defined.md` U1, is no value, written `none` in `returned`. -/
def Obligations.ViolationOnlySetsErr : Prop :=
  (∀ (a : Byte) (n : Nat) (s : State), n ≠ 0 → (Event.hread a n).violates →
    serve (.hread a n) s = .next { s with ERR := 1, returned := s.returned ++ [none] }) ∧
  (∀ (a : Byte) (d : List Byte) (s : State), d ≠ [] → (Event.hwrite a d).violates →
    serve (.hwrite a d) s = .next { s with ERR := 1 })

/-- `20_memory.md` R44, `43_host_port.md` R140: `HREAD` on its three arms. That what is read joins `returned` is the
model's choice, log entry 1, and that a violating read joins it as `none` is log entry 14. -/
def Obligations.HreadMeetsMemRead : Prop :=
  ∀ (a : Byte) (n : Nat) (s : State), n ≠ 0 →
    serve (.hread a n) s =
      if a.toNat + n ≤ 0x80 then
        .next { s with returned := s.returned ++ [some ((s.window.drop a.toNat).take n)] }
      else if a.toNat = 0x81 ∧ n = 1 then
        .next { s with returned := s.returned ++ [some [BitVec.ofNat 8 s.ERR.toNat]] }
      else .next { s with ERR := 1, returned := s.returned ++ [none] }

/-- `20_memory.md` R45, `43_host_port.md` R141: `HWRITE` on its three arms. -/
def Obligations.HwriteMeetsMemWrite : Prop :=
  ∀ (a : Byte) (d : List Byte) (s : State), d ≠ [] →
    if a.toNat + d.length ≤ 0x80 then
      ∃ t : State, serve (.hwrite a d) s = .next t ∧
        t.window = s.window.take a.toNat ++ d ++ s.window.drop (a.toNat + d.length) ∧
        t.ERR = s.ERR ∧ t.draws = s.draws ∧ t.pending = s.pending ∧ t.returned = s.returned
    else if a.toNat = 0x80 ∧ d.length = 1 then
      ∃ c : Byte, d = [c] ∧ serve (.hwrite a d) s = execute c s
    else serve (.hwrite a d) s = .next { s with ERR := 1 }

/-- `10_state.md` R27: `STATUS` reads as `ERR` with bits 7:1 zero and no side effect; a write of it is a
violation. -/
def Obligations.StatusIsAWindowOntoErr : Prop :=
  (∀ s : State, ∃ b : Byte, b.toNat = s.ERR.toNat ∧
    serve (.hread 0x81 1) s = .next { s with returned := s.returned ++ [some [b]] }) ∧
  (∀ (d : List Byte) (s : State), d ≠ [] → serve (.hwrite 0x81 d) s = .next { s with ERR := 1 }) ∧
  State.reset.statusByte = 0

/-- `10_state.md` R28: a one-byte write of `CMD` is the issue of that command; `CMD` cannot be read. That the
violating read gives back `none` is the model's choice, log entry 14. -/
def Obligations.CmdIsAWriteOnlyTrigger : Prop :=
  (∀ (c : Byte) (s : State), serve (.hwrite 0x80 [c]) s = execute c s) ∧
  (∀ (n : Nat) (s : State), n ≠ 0 →
    serve (.hread 0x80 n) s = .next { s with ERR := 1, returned := s.returned ++ [none] })

/-- `20_memory.md` R44, R45, R47: a window write followed by the read of the same bytes, as two steps, gives back
the data. -/
def Obligations.WriteThenReadReturnsData : Prop :=
  ∀ (s : State) (a : Byte) (d : List Byte) (rest : List Event),
    d ≠ [] → a.toNat + d.length ≤ 0x80 →
    ∃ t : State,
      Host.Core.run core 2 (s.setPending (.hwrite a d :: .hread a d.length :: rest)) = .next t ∧
      t.returned = s.returned ++ [some d] ∧ t.ERR = s.ERR ∧ t.pending = rest

/-- `20_memory.md` R46, R52: a window write carried as two smaller ones leaves the same state, and any window
write performed again changes nothing. -/
def Obligations.SplitAndRepeatedWritesAgree : Prop :=
  (∀ (s : State) (a : Byte) (d1 d2 : List Byte),
    d1 ≠ [] → d2 ≠ [] → a.toNat + (d1 ++ d2).length ≤ 0x80 →
    ∃ t t1 : State,
      serve (.hwrite a (d1 ++ d2)) s = .next t ∧
      serve (.hwrite a d1) s = .next t1 ∧
      serve (.hwrite (a + BitVec.ofNat 8 d1.length) d2) t1 = .next t) ∧
  (∀ (s : State) (a : Byte) (d : List Byte), d ≠ [] → a.toNat + d.length ≤ 0x80 →
    ∃ t : State, serve (.hwrite a d) s = .next t ∧ serve (.hwrite a d) t = .next t)

/-- `10_state.md` R20, R21, R30: over all events, `B` changes only in a window write or a reset, and `S` only in
one of these or a legal command. -/
def Obligations.OnlyWritesCommandsAndResetChangeOperands : Prop :=
  ∀ (s t : State) (e : Event) (rest : List Event),
    s.pending = e :: rest → step s = .next t → e ≠ .reset →
    (∀ (a : Byte) (d : List Byte), e = .hwrite a d → ¬ a.toNat + d.length ≤ 0x80) →
    t.B = s.B ∧ ((∀ i : Instr, e ≠ asmOp i) → t.S = s.S)

/-- `70_reset_and_hazards.md` R170, R171: reset is a step enabled in every state, and leaves `ERR = 0` and `STATUS`
reading 0. Nothing is said of `S` and `B`. -/
def Obligations.ResetIsAlwaysEnabledAndClearsErr : Prop :=
  ∀ (s : State) (rest : List Event), s.pending = .reset :: rest →
    ∃ t : State, step s = .next t ∧ t.ERR = 0 ∧ t.statusByte = 0x00 ∧
      t.pending = rest ∧ t.returned = s.returned

/-- THE MODEL'S CHOICE, log entries 2, 3 and 19 (`93_implementation_defined.md` U2): the unspecified bytes that a
reset leaves are the next 128 free bytes. It holds for every value of the free bytes. -/
def Obligations.ResetDrawsFreshBytes : Prop :=
  ∀ s : State, ∃ t : State,
    serve .reset s = .next t ∧ t.draws = s.draws + 128 ∧
    (∀ (k : Nat) (_ : k < 128), t.opw[k] = Config.freeByte (s.draws + k))

/-- Log entries 1, 3 and 6: the invariant holds right after reset. -/
def Obligations.InvHoldsAtReset : Prop := State.reset.Inv

/-- `60_exceptions.md` R151, R152, `70_reset_and_hazards.md` R177: from every state that meets the invariant a step
answers a next state, and that state meets the invariant: the engine never stops. So for every value of the open
parameters of `00_scope.md` R9. -/
def Obligations.EveryStepKeepsInvAndGoesOn : Prop :=
  ∀ s : State, s.Inv →
    (∃ t : State, step s = .next t ∧ t.Inv) ∧
    ∀ p : Config.B3Params, ∃ t : State, stepWith p s = .next t ∧ t.Inv

/-- `20_memory.md` R47: the steps of a run are the fold of the host's events over the performance of one, whatever
has still to come; at the defaults and for every value of the open parameters (`00_scope.md` R9). -/
def Obligations.RunIsTheFoldOfItsEvents : Prop :=
  ∀ (es rest : List Event) (s : State),
    Host.Core.run core es.length (s.setPending (es ++ rest)) = performAll es (s.setPending rest) ∧
    ∀ p : Config.B3Params,
      Host.Core.run (engine p) es.length (s.setPending (es ++ rest)) =
        performAllWith p es (s.setPending rest)

/-- `60_exceptions.md` R152, R156, `70_reset_and_hazards.md` R177: over a run without reset, `ERR` is 1 at the end
exactly if it was 1 at the start or some event violated. -/
def Obligations.ErrReportsTheWholeRun : Prop :=
  ∀ (es rest : List Event) (s t : State), (∀ e ∈ es, e ≠ .reset) →
    Host.Core.run core es.length (s.setPending (es ++ rest)) = .next t →
    (t.ERR = 1 ↔ s.ERR = 1 ∨ ∃ e ∈ es, e.violates)

/-- `30_encoding.md` R68, R69: the four transactions of `CALL`, as steps from any state, give back the result of the
operation on the two operands; so do `LDB` before `LDS`, omitting `LDB` when `B` holds the block, and omitting
`LDS` when `S` holds the state. -/
def Obligations.CallReturnsTheResult : Prop :=
  ∀ (op : Instr) (s : State) (st blk : Operand) (rest : List Event), op ∈ [Instr.aesc, .shac, .b3c] →
    ∃ u : State,
      exec op { s with S := st, B := blk, pending := rest } = .next u ∧
      Host.Core.run core 4 (s.setPending (asmCall op st blk ++ rest)) =
        .next { u with returned := s.returned ++ [some u.S.toList] } ∧
      Host.Core.run core 4 (s.setPending ([asmLdb blk, asmLds st, asmOp op, asmRds] ++ rest)) =
        .next { u with returned := s.returned ++ [some u.S.toList] } ∧
      Host.Core.run core 3 { s with B := blk, pending := [asmLds st, asmOp op, asmRds] ++ rest } =
        .next { u with returned := s.returned ++ [some u.S.toList] } ∧
      Host.Core.run core 3 { s with S := st, pending := [asmLdb blk, asmOp op, asmRds] ++ rest } =
        .next { u with returned := s.returned ++ [some u.S.toList] }

/-- `10_state.md` R31, `60_exceptions.md` R159: a step of one instance leaves every other as it was and does to its
own what a single engine does; steps of two instances may be taken in either order. So too where each instance has
its own open parameters (`00_scope.md` R9). -/
def Obligations.InstancesDoNotInteract : Prop :=
  (∀ (n : Nat) (j k : Fin n) (sys a : System n), j ≠ k → stepInstance k sys = .next a →
    step sys[k] = .next a[k] ∧ a[j] = sys[j]) ∧
  (∀ (n : Nat) (j k : Fin n) (sys a b c : System n), j ≠ k →
    stepInstance k sys = .next a → stepInstance j a = .next b → stepInstance j sys = .next c →
    stepInstance k c = .next b) ∧
  (∀ (n : Nat) (p : Fin n → Config.B3Params) (j k : Fin n) (sys a : System n), j ≠ k →
    stepInstanceWith p k sys = .next a → stepWith (p k) sys[k] = .next a[k] ∧ a[j] = sys[j]) ∧
  (∀ (n : Nat) (p : Fin n → Config.B3Params) (j k : Fin n) (sys a b c : System n), j ≠ k →
    stepInstanceWith p k sys = .next a → stepInstanceWith p j a = .next b →
    stepInstanceWith p j sys = .next c → stepInstanceWith p k c = .next b)

/-- `00_scope.md` R9, `93_implementation_defined.md` U4, U5: the machine takes the open parameters as its argument,
and they reach the operation `B3C` alone. With nothing presented, and on every event but the command `B3C`, the
machine steps alike for all of them; on that command it performs `B3C` with them; at the defaults it is `core`. -/
def Obligations.OpenParametersReachOnlyB3c : Prop :=
  ∀ (p : Config.B3Params) (s : State),
    (s.pending = [] → stepWith p s = .next s) ∧
    (∀ (e : Event) (rest : List Event), s.pending = e :: rest → e ≠ asmOp .b3c → stepWith p s = step s) ∧
    (∀ rest : List Event, s.pending = asmOp .b3c :: rest → stepWith p s = execB3cWith p (s.setPending rest)) ∧
    (engine b3Defaults).step s = core.step s ∧
    (∀ i : Instr, i ≠ .b3c → execWith p i s = exec i s) ∧
    execWith p .b3c s = execB3cWith p s

/-- `00_scope.md` R9, `30_encoding.md` R68, `42_blake3.md` R126: the four transactions of `CALL B3C`, as a run of the
machine with any open parameters from any state, give back the result of `B3C` with these parameters. -/
def Obligations.CallB3cForEveryParameters : Prop :=
  ∀ (p : Config.B3Params) (s : State) (st blk : Operand) (rest : List Event), ∃ u : State,
    execB3cWith p { s with S := st, B := blk, pending := rest } = .next u ∧
    Host.Core.run (engine p) 4 (s.setPending (asmCall .b3c st blk ++ rest)) =
      .next { u with returned := s.returned ++ [some u.S.toList] }
end

