-- ==== Sys2Proof/Laws/Operands.lean ====
section
/-! SUPPORT. What the views of an operand read and write: each byte or word of a view by its index, and the
conversions between bytes and words undoing each other (`10_state.md` R25, R26; `00_scope.md` R11). -/

namespace Sys2Proof.Machine

theorem lane_getElem (X : Operand) (j : Fin 4) (i : Nat) (h : i < 16) :
    (lane X j)[i] = X[16 * j.val + i] := by
  simp [lane]

theorem setLane_getElem (X : Operand) (j : Fin 4) (v : Lane) (i : Nat) (h : i < 64) :
    (setLane X j v)[i] = if i / 16 = j.val then v[i % 16] else X[i] := by
  simp [setLane]

theorem joinLanes_getElem (ls : Vector Lane 4) (i : Nat) (h : i < 64) :
    (joinLanes ls)[i] = ls[i / 16][i % 16] := by
  simp [joinLanes]

theorem lane_setLane_same (X : Operand) (j : Fin 4) (v : Lane) : lane (setLane X j v) j = v := by
  apply Vector.ext
  intro i hi
  have h1 : (16 * j.val + i) / 16 = j.val := by omega
  have h2 : (16 * j.val + i) % 16 = i := by omega
  simp [lane_getElem, setLane_getElem, h1, h2]

theorem lane_setLane_ne (X : Operand) (j k : Fin 4) (v : Lane) (h : k ≠ j) :
    lane (setLane X j v) k = lane X k := by
  apply Vector.ext
  intro i hi
  have hk : k.val ≠ j.val := fun e => h (Fin.ext e)
  have h1 : (16 * k.val + i) / 16 ≠ j.val := by omega
  simp [lane_getElem, setLane_getElem, h1]

theorem lane_joinLanes (ls : Vector Lane 4) (j : Fin 4) : lane (joinLanes ls) j = ls[j] := by
  apply Vector.ext
  intro i hi
  have h1 : (16 * j.val + i) / 16 = j.val := by omega
  have h2 : (16 * j.val + i) % 16 = i := by omega
  simp [lane_getElem, joinLanes_getElem, h1, h2]

theorem beWords_getElem (X : Operand) (t : Nat) (h : t < 16) :
    (beWords X)[t] = be32 X[4 * t] X[4 * t + 1] X[4 * t + 2] X[4 * t + 3] := by
  simp [beWords]

theorem leWords_getElem (X : Operand) (t : Nat) (h : t < 16) :
    (leWords X)[t] = le32 X[4 * t] X[4 * t + 1] X[4 * t + 2] X[4 * t + 3] := by
  simp [leWords]

theorem shaHalf_getElem (X : Operand) (h : Fin 2) (i : Nat) (hi : i < 8) :
    (shaHalf X h)[i] = (beWords X)[8 * h.val + i] := by
  simp [shaHalf]

theorem firstHalfWords_getElem (X : Operand) (i : Nat) (hi : i < 8) :
    (firstHalfWords X)[i] = (leWords X)[i] := by
  simp [firstHalfWords]

theorem ofBeWords_getElem (ws : Vector Word 16) (i : Nat) (h : i < 64) :
    (ofBeWords ws)[i] = (be32Bytes ws[i / 4])[i % 4] := by
  simp [ofBeWords]

theorem ofLeWords_getElem (ws : Vector Word 16) (i : Nat) (h : i < 64) :
    (ofLeWords ws)[i] = (le32Bytes ws[i / 4])[i % 4] := by
  simp [ofLeWords]

theorem be32_of_be32Bytes (w : Word) :
    be32 (be32Bytes w)[0] (be32Bytes w)[1] (be32Bytes w)[2] (be32Bytes w)[3] = w := by
  show w.extractLsb' 24 8 ++ w.extractLsb' 16 8 ++ w.extractLsb' 8 8 ++ w.extractLsb' 0 8 = w
  apply BitVec.eq_of_getLsbD_eq
  intro i hi
  simp only [BitVec.getLsbD_append, BitVec.getLsbD_extractLsb']
  repeat' split
  all_goals first
    | (simp only [*, decide_true, Bool.true_and]; congr 1; omega)
    | (rw [decide_eq_true (by omega), Bool.true_and]; congr 1; omega)

theorem le32_of_le32Bytes (w : Word) :
    le32 (le32Bytes w)[0] (le32Bytes w)[1] (le32Bytes w)[2] (le32Bytes w)[3] = w :=
  be32_of_be32Bytes w

theorem beWords_ofBeWords (ws : Vector Word 16) : beWords (ofBeWords ws) = ws := by
  apply Vector.ext
  intro t ht
  have h0 : 4 * t / 4 = t := by omega
  have h1 : (4 * t + 1) / 4 = t := by omega
  have h2 : (4 * t + 2) / 4 = t := by omega
  have h3 : (4 * t + 3) / 4 = t := by omega
  simp [beWords_getElem, ofBeWords_getElem, h0, h1, h2, h3, be32_of_be32Bytes]

theorem leWords_ofLeWords (ws : Vector Word 16) : leWords (ofLeWords ws) = ws := by
  apply Vector.ext
  intro t ht
  have h0 : 4 * t / 4 = t := by omega
  have h1 : (4 * t + 1) / 4 = t := by omega
  have h2 : (4 * t + 2) / 4 = t := by omega
  have h3 : (4 * t + 3) / 4 = t := by omega
  simp [leWords_getElem, ofLeWords_getElem, h0, h1, h2, h3, le32_of_le32Bytes]

end Sys2Proof.Machine
end

