-- ==== Sys2Proof/Laws/State.lean ====
section
/-! SUPPORT. One lemma per field per update of the state, so that no proof unfolds a record update, and
the bytes a drawn operand holds. -/

namespace Sys2Proof.Machine

variable (s : State)

@[simp] theorem setErr_S : s.setErr.S = s.S := rfl
@[simp] theorem setErr_B : s.setErr.B = s.B := rfl
@[simp] theorem setErr_ERR : s.setErr.ERR = 1 := rfl
@[simp] theorem setErr_draws : s.setErr.draws = s.draws := rfl
@[simp] theorem setErr_pending : s.setErr.pending = s.pending := rfl
@[simp] theorem setErr_returned : s.setErr.returned = s.returned := rfl

@[simp] theorem contractViolation_S : s.contractViolation.S = s.S := rfl
@[simp] theorem contractViolation_B : s.contractViolation.B = s.B := rfl
@[simp] theorem contractViolation_ERR : s.contractViolation.ERR = 1 := rfl
@[simp] theorem contractViolation_draws : s.contractViolation.draws = s.draws := rfl
@[simp] theorem contractViolation_pending : s.contractViolation.pending = s.pending := rfl
@[simp] theorem contractViolation_returned : s.contractViolation.returned = s.returned := rfl

@[simp] theorem writeS_S (v : Operand) : (s.writeS v).S = v := rfl
@[simp] theorem writeS_B (v : Operand) : (s.writeS v).B = s.B := rfl
@[simp] theorem writeS_ERR (v : Operand) : (s.writeS v).ERR = s.ERR := rfl
@[simp] theorem writeS_draws (v : Operand) : (s.writeS v).draws = s.draws := rfl
@[simp] theorem writeS_pending (v : Operand) : (s.writeS v).pending = s.pending := rfl
@[simp] theorem writeS_returned (v : Operand) : (s.writeS v).returned = s.returned := rfl

@[simp] theorem giveBack_S (r : Option (List Byte)) : (s.giveBack r).S = s.S := rfl
@[simp] theorem giveBack_B (r : Option (List Byte)) : (s.giveBack r).B = s.B := rfl
@[simp] theorem giveBack_ERR (r : Option (List Byte)) : (s.giveBack r).ERR = s.ERR := rfl
@[simp] theorem giveBack_draws (r : Option (List Byte)) : (s.giveBack r).draws = s.draws := rfl
@[simp] theorem giveBack_pending (r : Option (List Byte)) : (s.giveBack r).pending = s.pending := rfl
@[simp] theorem giveBack_returned (r : Option (List Byte)) :
    (s.giveBack r).returned = s.returned ++ [r] := rfl

@[simp] theorem writeWindow_ERR (a : Nat) (d : List Byte) : (s.writeWindow a d).ERR = s.ERR := rfl
@[simp] theorem writeWindow_draws (a : Nat) (d : List Byte) : (s.writeWindow a d).draws = s.draws := rfl
@[simp] theorem writeWindow_pending (a : Nat) (d : List Byte) :
    (s.writeWindow a d).pending = s.pending := rfl
@[simp] theorem writeWindow_returned (a : Nat) (d : List Byte) :
    (s.writeWindow a d).returned = s.returned := rfl

@[simp] theorem resetEngine_S : s.resetEngine.S = drawOperand s.draws := rfl
@[simp] theorem resetEngine_B : s.resetEngine.B = drawOperand (s.draws + 64) := rfl
@[simp] theorem resetEngine_ERR : s.resetEngine.ERR = 0 := rfl
@[simp] theorem resetEngine_draws : s.resetEngine.draws = s.draws + 128 := rfl
@[simp] theorem resetEngine_pending : s.resetEngine.pending = s.pending := rfl
@[simp] theorem resetEngine_returned : s.resetEngine.returned = s.returned := rfl

@[simp] theorem setPending_S (p : List Event) : (s.setPending p).S = s.S := rfl
@[simp] theorem setPending_B (p : List Event) : (s.setPending p).B = s.B := rfl
@[simp] theorem setPending_ERR (p : List Event) : (s.setPending p).ERR = s.ERR := rfl
@[simp] theorem setPending_draws (p : List Event) : (s.setPending p).draws = s.draws := rfl
@[simp] theorem setPending_pending (p : List Event) : (s.setPending p).pending = p := rfl
@[simp] theorem setPending_returned (p : List Event) : (s.setPending p).returned = s.returned := rfl
@[simp] theorem setPending_setPending (p q : List Event) :
    (s.setPending p).setPending q = s.setPending q := rfl
@[simp] theorem setPending_self : s.setPending s.pending = s := rfl
@[simp] theorem setErr_setPending (p : List Event) :
    (s.setPending p).setErr = s.setErr.setPending p := rfl
@[simp] theorem contractViolation_setPending (p : List Event) :
    (s.setPending p).contractViolation = s.contractViolation.setPending p := rfl
@[simp] theorem writeS_setPending (p : List Event) (v : Operand) :
    (s.setPending p).writeS v = (s.writeS v).setPending p := rfl
@[simp] theorem giveBack_setPending (p : List Event) (r : Option (List Byte)) :
    (s.setPending p).giveBack r = (s.giveBack r).setPending p := rfl
@[simp] theorem writeWindow_setPending (p : List Event) (a : Nat) (d : List Byte) :
    (s.setPending p).writeWindow a d = (s.writeWindow a d).setPending p := rfl
@[simp] theorem resetEngine_setPending (p : List Event) :
    (s.setPending p).resetEngine = s.resetEngine.setPending p := rfl
@[simp] theorem memRead_setPending (p : List Event) (addr : Byte) (n : Nat) :
    (s.setPending p).memRead addr n = s.memRead addr n := rfl

@[simp] theorem present_S (e : Event) : (s.present e).S = s.S := rfl
@[simp] theorem present_B (e : Event) : (s.present e).B = s.B := rfl
@[simp] theorem present_ERR (e : Event) : (s.present e).ERR = s.ERR := rfl
@[simp] theorem present_draws (e : Event) : (s.present e).draws = s.draws := rfl
@[simp] theorem present_pending (e : Event) : (s.present e).pending = e :: s.pending := rfl
@[simp] theorem present_returned (e : Event) : (s.present e).returned = s.returned := rfl

@[simp] theorem nextEvent_nil (h : s.pending = []) : s.nextEvent = none := by
  simp [State.nextEvent, h]

@[simp] theorem nextEvent_cons {e : Event} {rest : List Event} (h : s.pending = e :: rest) :
    s.nextEvent = some (e, s.setPending rest) := by
  simp [State.nextEvent, h]

theorem drawOperand_getElem (n i : Nat) (h : i < 64) :
    (drawOperand n)[i] = Config.freeByte (n + i) := by
  simp [drawOperand]

end Sys2Proof.Machine
end

