-- ==== Sys2Proof/Laws/Ops.lean ====
section
/-! SUPPORT. What each shared operation over the register address space can do, said once: the bytes of the
operand window, a window write (`20_memory.md` R45), `MemRead` (R44), and the outcomes of `hread`, `hwrite`
and `serve`, each for any performer of the operations and at the defaults. -/

namespace Sys2Proof.Machine

theorem opw_getElem (s : State) (k : Nat) (h : k < 128) :
    s.opw[k] = if h' : k < 64 then s.S[k] else s.B[k - 64] :=
  Vector.getElem_append h

theorem patchByte_inside {a k : Nat} {d : List Byte} (old : Byte) (h1 : a ≤ k) (h2 : k < a + d.length) :
    patchByte a d k old = d[k - a] := by
  have h : k - a < d.length := by omega
  simp [patchByte, h1, h]

theorem patchByte_outside {a k : Nat} {d : List Byte} (old : Byte) (h : k < a ∨ a + d.length ≤ k) :
    patchByte a d k old = old := by
  unfold patchByte
  split
  · rw [List.getElem?_eq_none (by omega)]; rfl
  · rfl

theorem patchOperand_getElem (base a : Nat) (d : List Byte) (X : Operand) (i : Nat) (h : i < 64) :
    (patchOperand base a d X)[i] = patchByte a d (base + i) X[i] := by
  simp [patchOperand]

theorem writeWindow_S_getElem (s : State) (a : Nat) (d : List Byte) (i : Nat) (h : i < 64) :
    (s.writeWindow a d).S[i] = patchByte a d i s.S[i] := by
  simp [State.writeWindow, patchOperand_getElem]

theorem writeWindow_B_getElem (s : State) (a : Nat) (d : List Byte) (i : Nat) (h : i < 64) :
    (s.writeWindow a d).B[i] = patchByte a d (64 + i) s.B[i] := by
  simp [State.writeWindow, patchOperand_getElem]

/-- A window write, byte by byte of the window. -/
theorem writeWindow_opw_getElem (s : State) (a : Nat) (d : List Byte) (k : Nat) (h : k < 128) :
    (s.writeWindow a d).opw[k] = patchByte a d k s.opw[k] := by
  rw [opw_getElem, opw_getElem]
  split
  · rw [writeWindow_S_getElem]
  · rw [writeWindow_B_getElem]
    congr 1; omega

theorem memRead_window (s : State) (addr : Byte) (n : Nat) (h : addr.toNat + n ≤ 0x80) :
    s.memRead addr n = some (List.ofFn fun i : Fin n => s.opw[addr.toNat + i.val]) := by
  simp only [State.memRead, h, dite_true]

theorem memRead_status (s : State) : s.memRead addrStatus 1 = some [s.statusByte] := by
  simp [State.memRead, addrStatus]

theorem memRead_violation (s : State) (addr : Byte) (n : Nat) (h : ¬ addr.toNat + n ≤ 0x80)
    (h' : ¬ (addr = addrStatus ∧ n = 1)) : s.memRead addr n = none := by
  simp only [State.memRead, h, h', dite_false, if_false]

/-- Everything a read of a well-formed event can do: it answers data and changes nothing, or it violates. -/
theorem hread_cases (addr : Byte) (n : Nat) (s : State) :
    (∃ d, s.memRead addr n = some d ∧ hread addr n s = .next (s.giveBack (some d))) ∨
    (s.memRead addr n = none ∧ hread addr n s = .next (s.contractViolation.giveBack none)) := by
  unfold hread
  cases h : s.memRead addr n with
  | none => exact .inr ⟨rfl, rfl⟩
  | some d => exact .inl ⟨d, rfl, rfl⟩

/-- Everything a command byte can do: its operation, or a contract violation. -/
theorem executeBy_cases (f : Performer) (c : Byte) (s : State) :
    (∃ i, decodeByte c = .ok i ∧ executeBy f c s = f i s) ∨
    (∃ r, decodeByte c = .error r ∧ executeBy f c s = .next s.contractViolation) := by
  unfold executeBy
  cases h : decodeByte c with
  | ok i => exact .inl ⟨i, rfl, rfl⟩
  | error r => exact .inr ⟨r, rfl, rfl⟩

theorem execute_cases (c : Byte) (s : State) :
    (∃ i, decodeByte c = .ok i ∧ execute c s = exec i s) ∨
    (∃ r, decodeByte c = .error r ∧ execute c s = .next s.contractViolation) :=
  executeBy_cases exec c s

/-- Everything a write can do: a window write, the command of one byte at `CMD`, or a contract violation. -/
theorem hwriteBy_cases (f : Performer) (addr : Byte) (d : List Byte) (s : State) :
    (addr.toNat + d.length ≤ 0x80 ∧ hwriteBy f addr d s = .next (s.writeWindow addr.toNat d)) ∨
    (∃ c, addr = addrCmd ∧ d = [c] ∧ hwriteBy f addr d s = executeBy f c s) ∨
    (¬ addr.toNat + d.length ≤ 0x80 ∧ ¬ (addr = addrCmd ∧ d.length = 1) ∧
      hwriteBy f addr d s = .next s.contractViolation) := by
  unfold hwriteBy
  by_cases h : addr.toNat + d.length ≤ 0x80
  · exact .inl ⟨h, if_pos h⟩
  · simp only [h, if_false, not_false_eq_true, true_and, false_and, false_or]
    match d with
    | [] => simp
    | [c] =>
      by_cases ha : addr = addrCmd
      · exact .inl ⟨c, ha, rfl, if_pos ha⟩
      · exact .inr ⟨fun hc => ha hc.1, if_neg ha⟩
    | _ :: _ :: _ => simp

theorem hwrite_cases (addr : Byte) (d : List Byte) (s : State) :
    (addr.toNat + d.length ≤ 0x80 ∧ hwrite addr d s = .next (s.writeWindow addr.toNat d)) ∨
    (∃ c, addr = addrCmd ∧ d = [c] ∧ hwrite addr d s = execute c s) ∨
    (¬ addr.toNat + d.length ≤ 0x80 ∧ ¬ (addr = addrCmd ∧ d.length = 1) ∧
      hwrite addr d s = .next s.contractViolation) :=
  hwriteBy_cases exec addr d s

theorem hwriteBy_window (f : Performer) (addr : Byte) (d : List Byte) (s : State)
    (h : addr.toNat + d.length ≤ 0x80) : hwriteBy f addr d s = .next (s.writeWindow addr.toNat d) := by
  unfold hwriteBy; rw [if_pos h]

theorem hwrite_window (addr : Byte) (d : List Byte) (s : State) (h : addr.toNat + d.length ≤ 0x80) :
    hwrite addr d s = .next (s.writeWindow addr.toNat d) :=
  hwriteBy_window exec addr d s h

theorem hwrite_cmd (c : Byte) (s : State) : hwrite addrCmd [c] s = execute c s := rfl

theorem serveBy_hread (f : Performer) (addr : Byte) (n : Nat) (s : State) (h : n ≠ 0) :
    serveBy f (.hread addr n) s = hread addr n s := by
  simp [serveBy, Event.wellFormed, h]

theorem serveBy_hwrite (f : Performer) (addr : Byte) (d : List Byte) (s : State) (h : d ≠ []) :
    serveBy f (.hwrite addr d) s = hwriteBy f addr d s := by
  cases d with
  | nil => exact absurd rfl h
  | cons b bs => rfl

theorem serveBy_reset (f : Performer) (s : State) : serveBy f .reset s = .next s.resetEngine := rfl

theorem serveBy_ill_formed (f : Performer) (e : Event) (s : State) (h : e.wellFormed = false) :
    serveBy f e s = .fault .zeroLengthAccess := by
  unfold serveBy; rw [h]; rfl

theorem serve_hread (addr : Byte) (n : Nat) (s : State) (h : n ≠ 0) :
    serve (.hread addr n) s = hread addr n s :=
  serveBy_hread exec addr n s h

theorem serve_hwrite (addr : Byte) (d : List Byte) (s : State) (h : d ≠ []) :
    serve (.hwrite addr d) s = hwrite addr d s :=
  serveBy_hwrite exec addr d s h

theorem serve_reset (s : State) : serve .reset s = .next s.resetEngine := rfl

/-- An event that names an access of no bytes is the model's only stop. -/
theorem serve_ill_formed (e : Event) (s : State) (h : e.wellFormed = false) :
    serve e s = .fault .zeroLengthAccess :=
  serveBy_ill_formed exec e s h

end Sys2Proof.Machine
end

