-- ==== Sys2Proof/Laws/Exec.lean ====
section
/-! SUPPORT. What a command can do, said once: it answers a next state that differs in `S` alone, by a
function of `S` and `B` (`10_state.md` R24). What a step can do, said once. -/

namespace Sys2Proof.Machine

/-- The 64 bytes a command leaves in `S`, from the bytes of `S` and `B`. -/
def commandResult : Instr → Operand → Operand → Operand
  | .aesc, S, B => aesCompress S B
  | .shac, S, B => sha256Compress S B
  | .b3c, S, B => blake3Compress b3Defaults S B
  | .aesr l k, S, B => setLane S l (aesRound (lane S l) (lane B k))

/-- Everything a command does. -/
theorem exec_eq_writeS (i : Instr) (s : State) :
    exec i s = .next (s.writeS (commandResult i s.S s.B)) := by
  cases i <;> rfl

/-- The 64 bytes a command leaves in `S`, for any open parameters (`00_scope.md` R9). -/
def commandResultWith (p : Config.B3Params) : Instr → Operand → Operand → Operand
  | .b3c, S, B => blake3Compress p S B
  | .aesc, S, B => commandResult .aesc S B
  | .shac, S, B => commandResult .shac S B
  | .aesr l k, S, B => commandResult (.aesr l k) S B

/-- Everything a command does, for any open parameters. -/
theorem execWith_eq_writeS (p : Config.B3Params) (i : Instr) (s : State) :
    execWith p i s = .next (s.writeS (commandResultWith p i s.S s.B)) := by
  cases i <;> rfl

theorem execWith_b3c (p : Config.B3Params) (s : State) : execWith p .b3c s = execB3cWith p s := rfl

theorem execWith_of_ne_b3c (p : Config.B3Params) {i : Instr} (h : i ≠ .b3c) (s : State) :
    execWith p i s = exec i s := by
  cases i with
  | b3c => exact absurd rfl h
  | _ => rfl

/-- At the defaults the parameterised operations are the machine's. -/
theorem execWith_defaults : execWith b3Defaults = exec := by
  funext i s
  cases i <;> rfl

/-- Everything a step can do, for any performer of the operations: nothing presented, or the next event. -/
theorem stepBy_cases (f : Performer) (s : State) :
    (s.pending = [] ∧ stepBy f s = .next s) ∨
    (∃ e rest, s.pending = e :: rest ∧ stepBy f s = serveBy f e (s.setPending rest)) := by
  unfold stepBy
  cases h : s.pending with
  | nil => exact .inl ⟨rfl, by rw [nextEvent_nil s h]⟩
  | cons e rest => exact .inr ⟨e, rest, rfl, by rw [nextEvent_cons s h]⟩

theorem stepBy_idle (f : Performer) (s : State) (h : s.pending = []) : stepBy f s = .next s := by
  unfold stepBy; rw [nextEvent_nil s h]

theorem stepBy_event (f : Performer) (s : State) {e : Event} {rest : List Event} (h : s.pending = e :: rest) :
    stepBy f s = serveBy f e (s.setPending rest) := by
  unfold stepBy; rw [nextEvent_cons s h]

/-- Everything a step can do: nothing presented, or the next event performed on the state without it. -/
theorem step_cases (s : State) :
    (s.pending = [] ∧ step s = .next s) ∨
    (∃ e rest, s.pending = e :: rest ∧ step s = serve e (s.setPending rest)) :=
  stepBy_cases exec s

theorem step_idle (s : State) (h : s.pending = []) : step s = .next s := stepBy_idle exec s h

theorem step_event (s : State) {e : Event} {rest : List Event} (h : s.pending = e :: rest) :
    step s = serve e (s.setPending rest) :=
  stepBy_event exec s h

theorem stepWith_event (p : Config.B3Params) (s : State) {e : Event} {rest : List Event}
    (h : s.pending = e :: rest) : stepWith p s = serveWith p e (s.setPending rest) :=
  stepBy_event (execWith p) s h

end Sys2Proof.Machine
end

