-- ==== Sys2Proof/Laws/Commands.lean ====
section
/-! SUPPORT. What each command leaves in each view of `S` (`40_aes.md` R88, `41_sha256.md` R107,
`42_blake3.md` R126), and what it leaves unchanged (`10_state.md` R30). -/

namespace Sys2Proof.Machine

/-- A result written over `S` leaves everything else. -/
theorem sameButS_writeS (s : State) (v : Operand) : s.sameButS (s.writeS v) :=
  ⟨rfl, rfl, rfl, rfl, rfl⟩

theorem contractViolation_eq (s : State) : s.contractViolation = { s with ERR := 1 } := rfl

theorem xorLane_getElem (x y : Lane) (i : Nat) (h : i < 16) : (xorLane x y)[i] = x[i] ^^^ y[i] := by
  simp [xorLane]

theorem lane_aesCompress (S B : Operand) (j : Fin 4) :
    lane (aesCompress S B) j = xorLane (aescRounds (lane S j) B) (lane S j) := by
  unfold aesCompress
  rw [lane_joinLanes]
  match j with
  | 0 => simp
  | 1 => simp
  | 2 => simp
  | 3 => simp

theorem shaHalf_sha256Compress (S B : Operand) (h : Fin 2) :
    shaHalf (sha256Compress S B) h = sha256Block (shaHalf S h) (beWords B) := by
  unfold sha256Compress
  apply Vector.ext
  intro i hi
  rw [shaHalf_getElem, beWords_ofBeWords, Vector.getElem_append]
  match h with
  | 0 => simp [hi]
  | 1 => simp

theorem leWords_blake3Compress (p : Config.B3Params) (S B : Operand) :
    leWords (blake3Compress p S B) =
      b3Compress (p.cvDerive S) (leWords B) Config.b3Counter p.blockLen Config.b3Flags := by
  unfold blake3Compress
  rw [leWords_ofLeWords]

theorem shaSlide_getElem (w : Vector Word 16) (i : Nat) (h : i < 15) :
    (shaSlide w)[i] = w[i + 1] := by
  simp [shaSlide, h]

theorem shaSlide_last (w : Vector Word 16) :
    (shaSlide w)[15] = shaSmallSigma1 w[14] + w[9] + shaSmallSigma0 w[1] + w[0] := by
  simp [shaSlide]

theorem b3Permute_getElem (m : Vector Word 16) (i : Nat) (h : i < 16) :
    (b3Permute m)[i] = m[b3Perm[i]] := by
  simp [b3Permute]

theorem b3Output_low (v : Vector Word 16) (cv : Vector Word 8) (i : Nat) (h : i < 8) :
    (b3Output v cv)[i] = v[i] ^^^ v[i + 8] := by
  simp [b3Output, h]

theorem b3Output_high (v : Vector Word 16) (cv : Vector Word 8) (i : Nat) (h : i < 8) :
    (b3Output v cv)[i + 8] = v[i + 8] ^^^ cv[i] := by
  simp [b3Output]

end Sys2Proof.Machine
end

