-- ==== Sys2Proof/Laws/PerInstr.lean ====
section
/-! SUPPORT. Statements made per operation, as syntax. -/

namespace Sys2Proof.Laws.EncodeLegal

/-- The command byte of the operation is a legal encoding: it is in neither class of `30_encoding.md` R65,
and its `OP` field is the operation's number of R62. -/
def Statement (i : Instr) : Prop :=
  (encodeByte i).toNat < 64 ∧
  ((encodeByte i).toNat % 4 ≠ 3 → (encodeByte i).toNat / 4 = 0) ∧
  (encodeByte i).toNat % 4 =
    match i with
    | .aesc => 0
    | .shac => 1
    | .b3c => 2
    | .aesr _ _ => 3

theorem aesc : Statement .aesc := by unfold Statement; decide

theorem shac : Statement .shac := by unfold Statement; decide

theorem b3c : Statement .b3c := by unfold Statement; decide

theorem aesr (lane key : Fin 4) : Statement (.aesr lane key) := by
  have h : (encodeByte (.aesr lane key)).toNat = 3 + 4 * lane.val + 16 * key.val := by
    simp only [encodeByte, BitVec.toNat_ofNat]
    omega
  simp only [Statement, h]
  omega

end Sys2Proof.Laws.EncodeLegal
end

