-- ==== Sys2Proof/Laws/Run.lean ====
section
/-! SUPPORT. A run, step by step, and that what the host has still to present does not change what an event
does (`20_memory.md` R47): no transaction sees a later one. -/

namespace Sys2Proof.Machine

theorem run_zero (s : State) : Host.Core.run core 0 s = .next s := rfl

theorem run_succ_next {s t : State} (k : Nat) (h : step s = .next t) :
    Host.Core.run core (k + 1) s = Host.Core.run core k t := by
  have e : core.step s = .next t := h
  simp only [Host.Core.run, e]

theorem run_succ_fault {s : State} (k : Nat) {r : Fault} (h : step s = .fault r) :
    Host.Core.run core (k + 1) s = .fault r := by
  have e : core.step s = .fault r := h
  simp only [Host.Core.run, e]

theorem run_succ_refused {s : State} (k : Nat) {r : Refusal} (h : step s = .refused r) :
    Host.Core.run core (k + 1) s = .refused r := by
  have e : core.step s = .refused r := h
  simp only [Host.Core.run, e]

/-- What performs the operations always completes, writes `S` alone, and reads neither `ERR` nor any of the
model's own fields. -/
def performsOperations (f : Performer) : Prop :=
  ∀ (i : Instr) (s : State) (p : List Event), ∃ r : Operand,
    f i s = .next (s.writeS r) ∧ f i (s.setPending p) = .next ((s.setPending p).writeS r)

theorem exec_performsOperations : performsOperations exec :=
  fun i s _ => ⟨commandResult i s.S s.B, exec_eq_writeS i s, exec_eq_writeS i _⟩

theorem execWith_performsOperations (p : Config.B3Params) : performsOperations (execWith p) :=
  fun i s _ => ⟨commandResultWith p i s.S s.B, execWith_eq_writeS p i s, execWith_eq_writeS p i _⟩

theorem executeBy_setPending {f : Performer} (hf : performsOperations f) (c : Byte) (s : State)
    (p : List Event) :
    ∃ t, executeBy f c s = .next t ∧ executeBy f c (s.setPending p) = .next (t.setPending p) := by
  unfold executeBy
  cases decodeByte c with
  | ok i =>
    obtain ⟨r, h1, h2⟩ := hf i s p
    exact ⟨_, h1, h2⟩
  | error r => exact ⟨_, rfl, rfl⟩

/-- A well-formed event always completes, and does the same whatever the host has still to present. -/
theorem serveBy_setPending {f : Performer} (hf : performsOperations f) (e : Event) (s : State)
    (p : List Event) (h : e.wellFormed = true) :
    ∃ t, serveBy f e s = .next t ∧ serveBy f e (s.setPending p) = .next (t.setPending p) := by
  unfold serveBy
  rw [if_pos h, if_pos h]
  cases e with
  | reset => exact ⟨_, rfl, rfl⟩
  | hread a n =>
    show ∃ t, hread a n s = .next t ∧ hread a n (s.setPending p) = _
    have hm : (s.setPending p).memRead a n = s.memRead a n := rfl
    unfold hread
    rw [hm]
    cases s.memRead a n with
    | none => exact ⟨_, rfl, rfl⟩
    | some d => exact ⟨_, rfl, rfl⟩
  | hwrite a d =>
    show ∃ t, hwriteBy f a d s = .next t ∧ hwriteBy f a d (s.setPending p) = _
    rcases hwriteBy_cases f a d s with ⟨hw, hx⟩ | ⟨c, ha, hd, hx⟩ | ⟨hw, hc, hx⟩
    · exact ⟨_, hx, hwriteBy_window f a d _ hw⟩
    · obtain ⟨t, h1, h2⟩ := executeBy_setPending hf c s p
      refine ⟨t, hx.trans h1, ?_⟩
      subst ha; subst hd
      exact h2
    · refine ⟨_, hx, ?_⟩
      rcases hwriteBy_cases f a d (s.setPending p) with ⟨hw', _⟩ | ⟨c, ha, hd, _⟩ | ⟨_, _, hx'⟩
      · exact absurd hw' hw
      · exact absurd ⟨ha, by rw [hd]; rfl⟩ hc
      · exact hx'

theorem serve_setPending (e : Event) (s : State) (p : List Event) (h : e.wellFormed = true) :
    ∃ t, serve e s = .next t ∧ serve e (s.setPending p) = .next (t.setPending p) :=
  serveBy_setPending exec_performsOperations e s p h

theorem serveWith_setPending (q : Config.B3Params) (e : Event) (s : State) (p : List Event)
    (h : e.wellFormed = true) :
    ∃ t, serveWith q e s = .next t ∧ serveWith q e (s.setPending p) = .next (t.setPending p) :=
  serveBy_setPending (execWith_performsOperations q) e s p h

/-- A step with a well-formed event presented answers a next state. -/
theorem step_completes {s : State} {e : Event} {rest : List Event} (hp : s.pending = e :: rest)
    (hw : e.wellFormed = true) : ∃ t, step s = .next t := by
  obtain ⟨t, h, _⟩ := serve_setPending e (s.setPending rest) [] hw
  exact ⟨t, (step_event s hp).trans h⟩

/-- The same for any open parameters. -/
theorem stepWith_completes (p : Config.B3Params) {s : State} {e : Event} {rest : List Event}
    (hp : s.pending = e :: rest) (hw : e.wellFormed = true) : ∃ t, stepWith p s = .next t := by
  obtain ⟨t, h, _⟩ := serveWith_setPending p e (s.setPending rest) [] hw
  exact ⟨t, (stepWith_event p s hp).trans h⟩

/-- A run of the parameterised machine takes one step and goes on. -/
theorem engine_run_succ_next (p : Config.B3Params) {s t : State} (k : Nat) (h : stepWith p s = .next t) :
    Host.Core.run (engine p) (k + 1) s = Host.Core.run (engine p) k t := by
  have e : (engine p).step s = .next t := h
  simp only [Host.Core.run, e]

theorem engine_run_succ_fault (p : Config.B3Params) {s : State} (k : Nat) {r : Fault}
    (h : stepWith p s = .fault r) : Host.Core.run (engine p) (k + 1) s = .fault r := by
  have e : (engine p).step s = .fault r := h
  simp only [Host.Core.run, e]

theorem performAll_nil (s : State) : performAll [] s = .next s := rfl

theorem performAllBy_cons_next {f : Performer} {e : Event} {s t : State} (es : List Event)
    (h : serveBy f e s = .next t) : performAllBy f (e :: es) s = performAllBy f es t := by
  simp only [performAllBy, h]

theorem performAllBy_cons_fault {f : Performer} {e : Event} {s : State} (es : List Event) {r : Fault}
    (h : serveBy f e s = .fault r) : performAllBy f (e :: es) s = .fault r := by
  simp only [performAllBy, h]

theorem performAll_cons_next {e : Event} {s t : State} (es : List Event) (h : serve e s = .next t) :
    performAll (e :: es) s = performAll es t :=
  performAllBy_cons_next es h

theorem performAll_cons_fault {e : Event} {s : State} (es : List Event) {r : Fault}
    (h : serve e s = .fault r) : performAll (e :: es) s = .fault r :=
  performAllBy_cons_fault es h

theorem decodeByte_encodeByte (i : Instr) : decodeByte (encodeByte i) = .ok i := by
  cases i with
  | aesr l k => revert l k; decide
  | _ => rfl

/-- The step of a command line (`30_encoding.md` R67), for any performer of the operations. -/
theorem stepBy_asmOp (f : Performer) (s : State) (i : Instr) (rest : List Event) :
    stepBy f (s.setPending (asmOp i :: rest)) = f i (s.setPending rest) := by
  rw [stepBy_event _ _ rfl, setPending_setPending]
  show executeBy f (encodeByte i) _ = _
  unfold executeBy
  rw [decodeByte_encodeByte]

theorem step_asmOp (s : State) (i : Instr) (rest : List Event) :
    step (s.setPending (asmOp i :: rest)) =
      .next ((s.writeS (commandResult i s.S s.B)).setPending rest) :=
  (stepBy_asmOp exec s i rest).trans (exec_eq_writeS _ _)

theorem stepWith_asmOp (p : Config.B3Params) (s : State) (i : Instr) (rest : List Event) :
    stepWith p (s.setPending (asmOp i :: rest)) =
      .next ((s.writeS (commandResultWith p i s.S s.B)).setPending rest) :=
  (stepBy_asmOp (execWith p) s i rest).trans (execWith_eq_writeS p _ _)

theorem patchOperand_whole (base : Nat) (v X : Operand) :
    patchOperand base base v.toList X = v := by
  apply Vector.ext
  intro i hi
  rw [patchOperand_getElem, patchByte_inside _ (by omega) (by rw [Vector.length_toList]; omega)]
  simp

theorem patchOperand_apart (base a : Nat) (v X : Operand) (h : base + 64 ≤ a ∨ a + 64 ≤ base) :
    patchOperand base a v.toList X = X := by
  apply Vector.ext
  intro i hi
  rw [patchOperand_getElem, patchByte_outside _ (by rw [Vector.length_toList]; omega)]

/-- The step of `LDS v` (R68). -/
theorem stepBy_asmLds (f : Performer) (s : State) (v : Operand) (rest : List Event) :
    stepBy f (s.setPending (asmLds v :: rest)) = .next ((s.writeS v).setPending rest) := by
  have hl : v.toList.length = 64 := Vector.length_toList
  rw [stepBy_event _ _ rfl, setPending_setPending, asmLds,
    serveBy_hwrite _ _ _ _ (fun h => by rw [h] at hl; cases hl),
    hwriteBy_window _ _ _ _ (by rw [hl]; decide), writeWindow_setPending]
  congr 2
  show { s with S := patchOperand 0 0 v.toList s.S, B := patchOperand 64 0 v.toList s.B } = _
  rw [patchOperand_whole, patchOperand_apart _ _ _ _ (by omega)]
  rfl

theorem step_asmLds (s : State) (v : Operand) (rest : List Event) :
    step (s.setPending (asmLds v :: rest)) = .next ((s.writeS v).setPending rest) :=
  stepBy_asmLds exec s v rest

/-- The step of `LDB v` (R68). -/
theorem stepBy_asmLdb (f : Performer) (s : State) (v : Operand) (rest : List Event) :
    stepBy f (s.setPending (asmLdb v :: rest)) = .next (({ s with B := v } : State).setPending rest) := by
  have hl : v.toList.length = 64 := Vector.length_toList
  rw [stepBy_event _ _ rfl, setPending_setPending, asmLdb,
    serveBy_hwrite _ _ _ _ (fun h => by rw [h] at hl; cases hl),
    hwriteBy_window _ _ _ _ (by rw [hl]; decide), writeWindow_setPending]
  congr 2
  show { s with S := patchOperand 0 64 v.toList s.S, B := patchOperand 64 64 v.toList s.B } = _
  rw [patchOperand_whole, patchOperand_apart _ _ _ _ (by omega)]

theorem step_asmLdb (s : State) (v : Operand) (rest : List Event) :
    step (s.setPending (asmLdb v :: rest)) = .next (({ s with B := v } : State).setPending rest) :=
  stepBy_asmLdb exec s v rest

theorem memRead_S (s : State) : s.memRead 0x00 64 = some s.S.toList := by
  rw [memRead_window _ _ _ (by decide)]
  congr 1
  apply List.ext_getElem
  · rw [List.length_ofFn, Vector.length_toList]
  · intro i h1 h2
    have hi : i < 64 := by rwa [List.length_ofFn] at h1
    have h0 : (0x00 : Byte).toNat + i = i := Nat.zero_add i
    rw [List.getElem_ofFn, Vector.getElem_toList]
    simp only [h0, opw_getElem, hi, dite_true]

/-- The step of `RDS` (R68). -/
theorem stepBy_asmRds (f : Performer) (s : State) (rest : List Event) :
    stepBy f (s.setPending (asmRds :: rest)) = .next ((s.giveBack (some s.S.toList)).setPending rest) := by
  rw [stepBy_event _ _ rfl, setPending_setPending, asmRds, serveBy_hread _ _ _ _ (by decide)]
  unfold hread
  rw [memRead_setPending, memRead_S]
  rfl

theorem step_asmRds (s : State) (rest : List Event) :
    step (s.setPending (asmRds :: rest)) = .next ((s.giveBack (some s.S.toList)).setPending rest) :=
  stepBy_asmRds exec s rest

/-- Everything a step of one instance can leave, where it answers a next system. -/
theorem place_eq_next {n : Nat} (sys a : System n) (k : Fin n) (o : Host.Outcome State Fault Refusal) :
    sys.place k o = .next a ↔ ∃ t, o = .next t ∧ a = sys.set k t := by
  cases o <;> simp [System.place, eq_comm]

end Sys2Proof.Machine
end

