-- ==== Sys2Proof/Tests/Slice0.lean ====
section
/-! SUPPORT. The model's own tests: commands written out bit by bit, ill-formed events, vectors of
`95_test_vectors.md` run as one step each, and for every statement with hypotheses a witness that meets
them. -/

namespace Sys2Proof.Tests

open Sys2Proof.Machine

/-- `Z`, `P`, `Q` of `95_test_vectors.md`. -/
def opZ : Operand := Vector.replicate 64 0
def opP : Operand := Vector.ofFn fun i => BitVec.ofNat 8 i.val
def opQ : Operand := Vector.ofFn fun i => BitVec.ofNat 8 (0xff - i.val)

/-- Sixty-four bytes from a list of bytes, zeros after it. -/
def opOf (l : List Byte) : Operand := Vector.ofFn fun i => l.getD i.val 0

/-- A state with the given operands, `ERR = 0` and the given events presented. -/
def st (S B : Operand) (es : List Event) : State :=
  { S := S, B := B, ERR := 0, draws := 0, pending := es, returned := [] }

/-- One observation of the next state an outcome holds. -/
def peek {α : Type} (f : State → α) : Host.Outcome State Fault Refusal → Option α
  | .next t => some (f t)
  | _ => none

/-- A step stops by the fault of an access of no bytes. -/
def stopsEmpty : Host.Outcome State Fault Refusal → Bool
  | .fault .zeroLengthAccess => true
  | _ => false

/-! Decode, by words written out from `30_encoding.md` R60: `RSV KEY LANE OP`. -/

theorem test_decode_aesc : decode [0b00000000] = .ok .aesc := by decide
theorem test_decode_shac : decode [0b00000001] = .ok .shac := by decide
theorem test_decode_b3c : decode [0b00000010] = .ok .b3c := by decide
theorem test_decode_aesr_lane1_key0 : decode [0b00000111] = .ok (.aesr 1 0) := by decide
theorem test_decode_aesr_lane2_key1 : decode [0b00011011] = .ok (.aesr 2 1) := by decide
theorem test_decode_aesr_lane3_key3 : decode [0b00111111] = .ok (.aesr 3 3) := by decide
theorem test_decode_aesr_lane0_key3 : decode [0b00110011] = .ok (.aesr 0 3) := by decide
theorem test_decode_rejects_lane_on_aesc : decode [0b00000100] = .error .operandField := by decide
theorem test_decode_rejects_key_on_aesc : decode [0b00010000] = .error .operandField := by decide
theorem test_decode_rejects_reserved : decode [0b01000011] = .error .reservedBits := by decide
theorem test_decode_rejects_two_bytes : decode [0x00, 0x01] = .error .notOneByte := by decide

/-- V-DEC-1: the legal bytes, all 19. -/
theorem test_legal_bytes :
    ((List.range 256).filter fun c => (decodeByte (BitVec.ofNat 8 c)).isOk) =
      [0x00, 0x01, 0x02, 0x03, 0x07, 0x0b, 0x0f, 0x13, 0x17, 0x1b, 0x1f, 0x23, 0x27, 0x2b, 0x2f, 0x33,
       0x37, 0x3b, 0x3f] := by decide +kernel

theorem test_table_word : decodeTableWord 8 0x1B = some (.aesr 2 1) := by decide

/-! Well-formedness: an ill-formed term for each check, which the check refuses. -/

theorem test_ill_formed_read : (Event.hread 0x00 0).wellFormed = false := by decide
theorem test_ill_formed_write : (Event.hwrite 0x00 []).wellFormed = false := by decide
theorem test_ill_formed_read_stops : stopsEmpty (step (st opZ opZ [.hread 0x00 0])) = true := by
  decide +kernel

/-! Vectors of `95_test_vectors.md` section 3, one step each. -/

/-- V-AESR-1, FIPS-197 appendix B round 1. -/
theorem test_vaesr1 :
    peek (fun t => (lane t.S 0).toList) (step (st
      (opOf [0x19, 0x3d, 0xe3, 0xbe, 0xa0, 0xf4, 0xe2, 0x2b, 0x9a, 0xc6, 0x8d, 0x2a, 0xe9, 0xf8, 0x48, 0x08])
      (opOf [0xa0, 0xfa, 0xfe, 0x17, 0x88, 0x54, 0x2c, 0xb1, 0x23, 0xa3, 0x39, 0x39, 0x2a, 0x6c, 0x76, 0x05])
      [asmCmd 0x03])) =
    some [0xa4, 0x9c, 0x7f, 0xf2, 0x68, 0x9f, 0x35, 0x2b, 0x6b, 0x5b, 0xea, 0x43, 0x02, 0x6a, 0x50, 0x49] := by
  decide +kernel

/-- V-AESR-3: lane 2 with key 1. -/
theorem test_vaesr3 :
    peek (fun t => ((lane t.S 2).toList, t.S[31], t.S[48])) (step (st opP opQ [asmCmd 0x1b])) =
    some ([0x2b, 0x06, 0x8b, 0xde, 0x64, 0xf8, 0x72, 0x6a, 0xa3, 0x1b, 0x7b, 0x70, 0x1b, 0x81, 0x90, 0x80],
      0x1f, 0x30) := by decide +kernel

/-- V-AESC-2: four distinct keys. -/
theorem test_vaesc2 :
    peek (fun t => (lane t.S 3).toList) (step (st opP opQ [asmCmd 0x00])) =
    some [0xcb, 0xea, 0xd7, 0xb0, 0xb1, 0x4b, 0xdc, 0xa1, 0x4d, 0x69, 0x3f, 0xca, 0xeb, 0x61, 0x30, 0xfb] := by
  decide +kernel

/-- V-AESC-4: zero keys. -/
theorem test_vaesc4 :
    peek (fun t => (lane t.S 1).toList) (step (st opP opZ [asmCmd 0x00])) =
    some [0x7f, 0xc6, 0xfa, 0x4a, 0x22, 0xc3, 0xc6, 0x34, 0xc9, 0xd2, 0x49, 0x0d, 0x9c, 0x2d, 0x80, 0x1a] := by
  decide +kernel

/-- V-SHAC-5: half 0 is the SHA-256 digest of "abc", half 1 is compressed from zeros. -/
theorem test_vshac5 :
    peek (fun t => ((lane t.S 0).toList, (lane t.S 2).toList)) (step (st
      (opOf [0x6a, 0x09, 0xe6, 0x67, 0xbb, 0x67, 0xae, 0x85, 0x3c, 0x6e, 0xf3, 0x72, 0xa5, 0x4f, 0xf5, 0x3a,
             0x51, 0x0e, 0x52, 0x7f, 0x9b, 0x05, 0x68, 0x8c, 0x1f, 0x83, 0xd9, 0xab, 0x5b, 0xe0, 0xcd, 0x19])
      (opOf ([0x61, 0x62, 0x63, 0x80] ++ List.replicate 59 0x00 ++ [0x18])) [asmCmd 0x01])) =
    some ([0xba, 0x78, 0x16, 0xbf, 0x8f, 0x01, 0xcf, 0xea, 0x41, 0x41, 0x40, 0xde, 0x5d, 0xae, 0x22, 0x23],
      [0x47, 0x50, 0x34, 0x33, 0x48, 0x2e, 0x4d, 0xf4, 0x4a, 0xce, 0x42, 0x4f, 0xf2, 0xc6, 0xbf, 0x20]) := by
  decide +kernel

/-- V-SHAC-3: distinct halves. -/
theorem test_vshac3 :
    peek (fun t => (lane t.S 3).toList) (step (st opP opQ [asmCmd 0x01])) =
    some [0x77, 0xf0, 0xc4, 0x95, 0x8e, 0x8c, 0x0d, 0xcb, 0x1c, 0x72, 0x24, 0xff, 0x23, 0xa6, 0x0c, 0x58] := by
  decide +kernel

/-- V-B3C-1: the zero corner, which shows the block length 64. -/
theorem test_vb3c1 :
    peek (fun t => (lane t.S 0).toList) (step (st opZ opZ [asmCmd 0x02])) =
    some [0x06, 0x0b, 0xa0, 0x41, 0xc0, 0x85, 0xcf, 0xf0, 0xf8, 0x48, 0x01, 0x34, 0x9d, 0xa9, 0x8e, 0x8d] := by
  decide +kernel

/-- V-B3C-2: the second half of the output, which is XORed with the chaining value. -/
theorem test_vb3c2 :
    peek (fun t => (lane t.S 2).toList) (step (st opP opQ [asmCmd 0x02])) =
    some [0x48, 0xea, 0x65, 0x42, 0xa6, 0xdd, 0xe5, 0x12, 0x3f, 0xc1, 0xc7, 0xb0, 0x50, 0x0e, 0x63, 0x58] := by
  decide +kernel

/-- `42_blake3.md` R125: the block length 0 instead of 64 gives the first word `0xFD22061A`, as a step of the
machine with that parameter. -/
theorem test_b3c_block_length_0 :
    peek (fun t => (lane t.S 0).toList.take 4)
      (stepWith { b3Defaults with blockLen := 0 } (st opZ opZ [asmCmd 0x02])) =
    some [0x1a, 0x06, 0x22, 0xfd] := by decide +kernel

/-- `42_blake3.md` R129: the published BLAKE3 digest of "abc", its first four words. -/
theorem test_b3_digest_abc :
    ((b3Compress b3IV (leWords (opOf [0x61, 0x62, 0x63])) 0 3 0x0B).toList.take 4).map
      (fun w => (le32Bytes w).toList) =
    [[0x64, 0x37, 0xb3, 0xac], [0x38, 0x46, 0x51, 0x33], [0xff, 0xb6, 0x3b, 0x75], [0x27, 0x3a, 0x8d, 0xb5]] := by
  decide +kernel

/-- `40_aes.md` R83: the index table `SR`. -/
theorem test_shiftRows_table :
    (shiftRows (Vector.ofFn fun i => BitVec.ofNat 8 i.val)).toList =
      [0, 5, 10, 15, 4, 9, 14, 3, 8, 13, 2, 7, 12, 1, 6, 11] := by decide +kernel

/-! The port table, `95_test_vectors.md` section 3.6; start `S = P`, `B = Q`, `ERR = 0`. -/

theorem test_read_spans_S_and_B :
    peek (fun t => (t.returned, t.ERR)) (step (st opP opQ [.hread 0x3f 2])) =
      some ([some [0x3f, 0xff]], 0) := by decide +kernel

theorem test_read_past_window_violates :
    peek (fun t => (t.returned, t.ERR)) (step (st opP opQ [.hread 0x7f 2])) = some ([none], 1) := by
  decide +kernel

theorem test_read_status :
    peek (fun t => (t.returned, t.ERR)) (step (st opP opQ [asmStat])) = some ([some [0x00]], 0) := by
  decide +kernel

theorem test_write_spans_S_and_B :
    peek (fun t => (t.S[62], t.S[63], t.B[0], t.B[1])) (step (st opP opQ [.hwrite 0x3f [0x11, 0x22]])) =
      some (0x3e, 0x11, 0x22, 0xfe) := by decide +kernel

theorem test_write_past_window_violates :
    peek (fun t => (t.B[63], t.S[0], t.ERR)) (step (st opP opQ [.hwrite 0x7f [0xaa, 0x00]])) =
      some (0xc0, 0x00, 1) := by decide +kernel

theorem test_wide_write_of_cmd_violates :
    peek (fun t => (t.S[1], t.ERR)) (step (st opP opQ [.hwrite 0x80 [0x00, 0x01]])) = some (0x01, 1) := by
  decide +kernel

/-- `20_memory.md` R42: the little-endian view. -/
theorem test_le_number : leNumber [0x78, 0x56, 0x34, 0x12] = 0x12345678 := by decide

theorem test_reset_clears_err :
    peek (fun t => t.ERR) (step { st opP opQ [.reset] with ERR := 1 }) = some 0 := by decide +kernel

/-! Witnesses: for each statement with hypotheses, values that meet them together, clause by clause. -/

theorem witness_IllegalCommandOnlySetsErr :
    (0x40 : Byte).toNat / 64 ≠ 0 ∧ (0xff : Byte).toNat / 64 ≠ 0 ∧
    ((0x04 : Byte).toNat / 64 = 0 ∧ (0x04 : Byte).toNat % 4 ≠ 3 ∧ (0x04 : Byte).toNat / 4 % 16 ≠ 0) ∧
    ((0x3e : Byte).toNat / 64 = 0 ∧ (0x3e : Byte).toNat % 4 ≠ 3 ∧ (0x3e : Byte).toNat / 4 % 16 ≠ 0) ∧
    ¬ ((0x3f : Byte).toNat / 64 ≠ 0 ∨
      ((0x3f : Byte).toNat / 64 = 0 ∧ (0x3f : Byte).toNat % 4 ≠ 3 ∧ (0x3f : Byte).toNat / 4 % 16 ≠ 0)) ∧
    ¬ ((0x02 : Byte).toNat / 64 ≠ 0 ∨
      ((0x02 : Byte).toNat / 64 = 0 ∧ (0x02 : Byte).toNat % 4 ≠ 3 ∧ (0x02 : Byte).toNat / 4 % 16 ≠ 0)) := by
  decide

theorem witness_StepRunsDecodedInstruction :
    ((st opZ opZ [.hwrite 0x80 [0x3f], .reset]).pending = .hwrite 0x80 [0x3f] :: [.reset] ∧
      decode [0x3f] = .ok (.aesr 3 3)) ∧
    (st opZ opZ [.hread 0x81 1]).pending = .hread 0x81 1 :: [] ∧
    (st opZ opZ []).pending = [] := ⟨⟨rfl, by decide⟩, rfl, rfl⟩

theorem witness_WordArithmeticAsNumbers : (0 < 1 ∧ 1 < 32) ∧ (0 < 31 ∧ 31 < 32) := by decide

theorem witness_SboxIsInverseThenAffine : (0 : Byte) = 0 ∧ (0xff : Byte) ≠ 0 := by decide

theorem witness_AesrWritesOneRound :
    63 < 64 ∧ 63 / 16 ≠ (2 : Fin 4).val ∧ 15 < 64 ∧ 15 / 16 ≠ (1 : Fin 4).val := by decide

theorem witness_AescLanesNeverMix :
    ∃ (s s' t t' : State) (j j' : Fin 4), exec .aesc s = .next t ∧ exec .aesc s' = .next t' ∧
      s.B = s'.B ∧ lane s.S j = lane s'.S j' ∧ j ≠ j' :=
  ⟨st opZ opQ [], st opZ opQ [], _, _, 0, 3, exec_eq_writeS _ _, exec_eq_writeS _ _, rfl,
    by decide +kernel, by decide⟩

theorem witness_AescFromSixteenAesr :
    [0, 1, 2, 3].Perm ([0, 1, 2, 3] : List (Fin 4)) ∧ [3, 1, 2, 0].Perm ([0, 1, 2, 3] : List (Fin 4)) := by
  decide

theorem witness_Sha256BlockMeetsRecurrences :
    0 < 16 ∧ 15 < 16 ∧ (16 ≤ 16 ∧ 16 < 64) ∧ (16 ≤ 63 ∧ 63 < 64) := by decide

theorem witness_ShacHalvesNeverMix :
    ∃ (s s' t t' : State) (h h' : Fin 2), exec .shac s = .next t ∧ exec .shac s' = .next t' ∧
      s.B = s'.B ∧ shaHalf s.S h = shaHalf s'.S h' ∧ h ≠ h' :=
  ⟨st opZ opQ [], st opZ opQ [], _, _, 0, 1, exec_eq_writeS _ _, exec_eq_writeS _ _, rfl,
    by decide +kernel, by decide⟩

theorem witness_B3QuarterRoundByWords :
    ([0, 4, 8, 12] : List (Fin 16)).Nodup ∧ ([3, 4, 9, 14] : List (Fin 16)).Nodup ∧
    (15 : Fin 16) ∉ ([3, 4, 9, 14] : List (Fin 16)) := by decide

theorem witness_B3RoundStepsCommute :
    b3Columns.reverse.Perm b3Columns ∧ b3Diagonals.reverse.Perm b3Diagonals :=
  ⟨List.reverse_perm _, List.reverse_perm _⟩

theorem witness_B3CompressMeetsLoop : 5 < 6 ∧ 6 < 7 ∧ 7 < 8 := by decide

theorem witness_B3cIgnoresUpperHalfByDefault :
    ∃ s s' t t' : State, exec .b3c s = .next t ∧ exec .b3c s' = .next t' ∧ s.B = s'.B ∧
      (∀ (i : Nat) (_ : i < 32), s.S[i] = s'.S[i]) ∧ s.S ≠ s'.S := by
  have h : ∀ i : Fin 32, opZ[i.val] = (opOf (List.replicate 32 0 ++ [1]))[i.val] := by decide +kernel
  exact ⟨st opZ opQ [], st (opOf (List.replicate 32 0 ++ [1])) opQ [], _, _, exec_eq_writeS _ _,
    exec_eq_writeS _ _, by simp only [st], fun i hi => h ⟨i, hi⟩, by decide +kernel⟩

/-- Two states that differ in a byte of lane 0, and a command that reads lane 3 and key 0. -/
theorem witness_CommandDependsOnlyOnBytesItReads :
    ∃ (i : Instr) (s s' t t' : State), exec i s = .next t ∧ exec i s' = .next t' ∧
      (∀ (k : Nat) (_ : k < 128), readsByte i k → s.opw[k] = s'.opw[k]) ∧ s.S ≠ s'.S ∧ writesByte i 63 := by
  have h : ∀ k : Fin 128, k.val ≠ 0 → (st opZ opQ []).opw[k.val] = (st (opOf [1]) opQ []).opw[k.val] := by
    decide +kernel
  refine ⟨.aesr 3 0, st opZ opQ [], st (opOf [1]) opQ [], _, _, exec_eq_writeS _ _, exec_eq_writeS _ _,
    fun k hk hr => h ⟨k, hk⟩ fun h0 => ?_, by decide +kernel, by unfold writesByte; decide⟩
  have h0 : k = 0 := h0
  subst h0
  exact absurd hr (by unfold readsByte; decide)

theorem witness_EveryCommandCompletesInItsFrame :
    ¬ writesByte (.aesr 1 0) 15 ∧ ¬ writesByte (.aesr 1 0) 32 := 
  ⟨by unfold writesByte; decide, by unfold writesByte; decide⟩

theorem violates_read_past_window : (Event.hread 0x7f 2).violates :=
  ⟨.v7, by decide +kernel, by decide +kernel⟩

theorem violates_wide_status_read : (Event.hread 0x81 2).violates :=
  ⟨.v6, by decide +kernel, by decide +kernel⟩

theorem violates_reserved_read : (Event.hread 0xff 1).violates :=
  ⟨.v3, .inl ⟨0, by decide +kernel, by decide +kernel, by decide +kernel⟩⟩

theorem violates_cmd_read : (Event.hread 0x80 1).violates :=
  ⟨.v4, 0, by decide +kernel, by decide +kernel, by decide +kernel⟩

theorem violates_reserved_bits : (Event.hwrite 0x80 [0x40]).violates :=
  ⟨.v1, rfl, 0x40, rfl, by decide +kernel⟩

theorem violates_operand_field : (Event.hwrite 0x80 [0x3e]).violates :=
  ⟨.v2, rfl, 0x3e, rfl, by decide +kernel⟩

theorem violates_status_write : (Event.hwrite 0x81 [0x00]).violates :=
  ⟨.v5, 0, by decide +kernel, by decide +kernel, by decide +kernel⟩

theorem not_violates_status_read : ¬ (Event.hread 0x81 1).violates := by
  rintro ⟨c, hc⟩
  cases c with
  | v1 => exact hc
  | v2 => exact hc
  | v3 =>
    rcases hc with ⟨k, h1, h2, _⟩ | h
    · have h0 : (0x81 : Byte).toNat = 0x81 := rfl
      omega
    · exact absurd h (by decide +kernel)
  | v4 =>
    obtain ⟨k, h1, _, h3⟩ := hc
    have h0 : (0x81 : Byte).toNat = 0x81 := rfl
    omega
  | v5 => exact hc
  | v6 => exact absurd hc.2 (by decide)
  | v7 => exact absurd hc.1 (by decide +kernel)

/-- Three events, one for each clause: a reset, a violation, and an event that does not violate. -/
theorem witness_ErrIsStickyUntilReset :
    (∃ (s t : State) (rest : List Event), s.pending = .reset :: rest ∧ step s = .next t) ∧
    (∃ (s t : State) (e : Event) (rest : List Event),
      s.pending = e :: rest ∧ step s = .next t ∧ e ≠ .reset ∧ e.violates) ∧
    (∃ (s t : State) (e : Event) (rest : List Event),
      s.pending = e :: rest ∧ step s = .next t ∧ e ≠ .reset ∧ ¬ e.violates) := by
  obtain ⟨t1, h1⟩ := step_completes (s := st opZ opZ [.reset]) (e := .reset) (rest := []) rfl rfl
  obtain ⟨t2, h2⟩ := step_completes (s := st opZ opZ [.hread 0x80 1]) (e := .hread 0x80 1) (rest := []) rfl rfl
  obtain ⟨t3, h3⟩ := step_completes (s := st opZ opZ [.hread 0x81 1]) (e := .hread 0x81 1) (rest := []) rfl rfl
  exact ⟨⟨_, _, _, rfl, h1⟩, ⟨_, _, _, _, rfl, h2, by decide, violates_cmd_read⟩,
    ⟨_, _, _, _, rfl, h3, by decide, not_violates_status_read⟩⟩

/-- The third arm's two boundaries, and a command byte of each class that V1 and V2 name. -/
theorem witness_CausesAreTheThirdArms :
    ((1 : Nat) ≠ 0 ∧ ¬ (0x80 : Byte).toNat + 1 ≤ 0x80 ∧ ¬ (0x80 : Byte).toNat = 0x81) ∧
    (([0x00] : List Byte) ≠ [] ∧ ¬ (0x81 : Byte).toNat + ([0x00] : List Byte).length ≤ 0x80 ∧
      ¬ (0x81 : Byte).toNat = 0x80) ∧
    decode [0x40] = .error .reservedBits ∧ decode [0x3e] = .error .operandField := by decide

theorem witness_ViolationOnlySetsErr :
    (2 ≠ 0 ∧ (Event.hread 0x7f 2).violates) ∧ (2 ≠ 0 ∧ (Event.hread 0x81 2).violates) ∧
    (1 ≠ 0 ∧ (Event.hread 0xff 1).violates) ∧
    (([0x40] : List Byte) ≠ [] ∧ (Event.hwrite 0x80 [0x40]).violates) ∧
    (([0x3e] : List Byte) ≠ [] ∧ (Event.hwrite 0x80 [0x3e]).violates) ∧
    (([0x00] : List Byte) ≠ [] ∧ (Event.hwrite 0x81 [0x00]).violates) :=
  ⟨⟨by decide, violates_read_past_window⟩, ⟨by decide, violates_wide_status_read⟩,
    ⟨by decide, violates_reserved_read⟩, ⟨by decide, violates_reserved_bits⟩,
    ⟨by decide, violates_operand_field⟩, ⟨by decide, violates_status_write⟩⟩

/-- Each arm at the boundary of its range. -/
theorem witness_HreadMeetsMemRead :
    (128 ≠ 0 ∧ (0x00 : Byte).toNat + 128 ≤ 0x80) ∧ (1 ≠ 0 ∧ (0x7f : Byte).toNat + 1 ≤ 0x80) ∧
    (1 ≠ 0 ∧ ¬ (0x81 : Byte).toNat + 1 ≤ 0x80 ∧ (0x81 : Byte).toNat = 0x81) ∧
    (2 ≠ 0 ∧ ¬ (0x7f : Byte).toNat + 2 ≤ 0x80 ∧ ¬ (0x7f : Byte).toNat = 0x81) := by decide

/-- Each arm at the boundary of its range. -/
theorem witness_HwriteMeetsMemWrite :
    (([0xaa] : List Byte) ≠ [] ∧ (0x7f : Byte).toNat + ([0xaa] : List Byte).length ≤ 0x80) ∧
    (¬ (0x80 : Byte).toNat + ([0xaa] : List Byte).length ≤ 0x80 ∧ (0x80 : Byte).toNat = 0x80) ∧
    (¬ (0x7f : Byte).toNat + ([0xaa, 0x00] : List Byte).length ≤ 0x80 ∧ ¬ (0x7f : Byte).toNat = 0x80) := by
  decide

theorem witness_StatusAndCmd : ([0x00] : List Byte) ≠ [] ∧ (1 : Nat) ≠ 0 := by decide

theorem witness_WriteThenReadReturnsData :
    ([0xaa] : List Byte) ≠ [] ∧ (0x7f : Byte).toNat + ([0xaa] : List Byte).length ≤ 0x80 := by decide

theorem witness_SplitAndRepeatedWritesAgree :
    ([0xaa] : List Byte) ≠ [] ∧ ([0xbb, 0xcc] : List Byte) ≠ [] ∧
    (0x7d : Byte).toNat + (([0xaa] : List Byte) ++ [0xbb, 0xcc]).length ≤ 0x80 ∧
    (0x7f : Byte).toNat + ([0xaa] : List Byte).length ≤ 0x80 := by decide

theorem witness_OnlyWritesCommandsAndResetChangeOperands :
    ∃ (s t : State) (e : Event) (rest : List Event),
      s.pending = e :: rest ∧ step s = .next t ∧ e ≠ .reset ∧
      (∀ (a : Byte) (d : List Byte), e = .hwrite a d → ¬ a.toNat + d.length ≤ 0x80) ∧
      (∀ i : Instr, e ≠ asmOp i) := by
  obtain ⟨t, h⟩ := step_completes (s := st opZ opZ [.hread 0x00 128]) (e := .hread 0x00 128) (rest := []) rfl rfl
  refine ⟨_, t, _, _, rfl, h, by decide, ?_, ?_⟩
  · intro a d hd
    cases hd
  · intro i hi
    cases hi

theorem witness_ResetIsAlwaysEnabledAndClearsErr :
    (st opZ opZ [.reset, asmStat]).pending = .reset :: [asmStat] := rfl

theorem witness_EveryStepKeepsInvAndGoesOn : (st opP opQ [asmOp .shac, asmRds, .reset]).Inv :=
  ⟨by decide, fun d h => absurd h (by simp [st]), rfl⟩

theorem witness_ErrReportsTheWholeRun :
    ∃ (es rest : List Event) (s t : State), (∀ e ∈ es, e ≠ .reset) ∧ es ≠ [] ∧
      Host.Core.run core es.length (s.setPending (es ++ rest)) = .next t :=
  ⟨[asmOp .aesc], [], st opZ opZ [], _, by decide, by decide,
    (run_succ_next 0 (step_asmOp _ .aesc [])).trans (run_zero _)⟩

theorem witness_CallReturnsTheResult :
    Instr.aesc ∈ [Instr.aesc, .shac, .b3c] ∧ Instr.shac ∈ [Instr.aesc, .shac, .b3c] ∧
    Instr.b3c ∈ [Instr.aesc, .shac, .b3c] := by decide

theorem witness_InstancesDoNotInteract :
    (∃ (j k : Fin 2) (sys a b c : System 2), j ≠ k ∧ stepInstance k sys = .next a ∧
      stepInstance j a = .next b ∧ stepInstance j sys = .next c) ∧
    (∃ (p : Fin 2 → Config.B3Params) (j k : Fin 2) (sys a b c : System 2), j ≠ k ∧
      stepInstanceWith p k sys = .next a ∧ stepInstanceWith p j a = .next b ∧
      stepInstanceWith p j sys = .next c) :=
  ⟨⟨0, 1, #v[st opZ opZ [], st opP opQ []], _, _, _, by decide, rfl, rfl, rfl⟩,
    ⟨fun _ => b3Defaults, 0, 1, #v[st opZ opZ [], st opP opQ []], _, _, _, by decide, rfl, rfl, rfl⟩⟩

theorem witness_OpenParametersReachOnlyB3c :
    (st opP opQ []).pending = [] ∧
    ((st opP opQ [.reset]).pending = .reset :: [] ∧ Event.reset ≠ asmOp .b3c) ∧
    ((st opP opQ [asmOp .shac]).pending = asmOp .shac :: [] ∧ asmOp .shac ≠ asmOp .b3c) ∧
    (st opP opQ [asmOp .b3c, asmRds]).pending = asmOp .b3c :: [asmRds] ∧ Instr.shac ≠ .b3c :=
  ⟨rfl, ⟨rfl, by decide⟩, ⟨rfl, by decide⟩, rfl, by decide⟩

end Sys2Proof.Tests
end

namespace Sys2Proof.Machine

/-! What the operations on the state keep of the invariant. -/

/-- The invariant speaks of the model's own fields alone. -/
theorem State.Inv.of_same_host_fields {s t : State} (h : s.Inv) (hp : t.pending = s.pending)
    (hr : t.returned = s.returned) (hd : t.draws = s.draws) : t.Inv := by
  unfold State.Inv
  rw [hp, hr, hd]
  exact h

theorem State.Inv.contractViolation {s : State} (h : s.Inv) : s.contractViolation.Inv :=
  h.of_same_host_fields rfl rfl rfl

theorem State.Inv.writeS {s : State} (h : s.Inv) (v : Operand) : (s.writeS v).Inv :=
  h.of_same_host_fields rfl rfl rfl

theorem State.Inv.writeWindow {s : State} (h : s.Inv) (a : Nat) (d : List Byte) :
    (s.writeWindow a d).Inv :=
  h.of_same_host_fields rfl rfl rfl

theorem State.Inv.resetEngine {s : State} (h : s.Inv) : s.resetEngine.Inv := by
  obtain ⟨hp, hr, hd⟩ := h
  exact ⟨hp, hr, by rw [resetEngine_draws]; omega⟩

theorem State.Inv.giveBack {s : State} (h : s.Inv) {r : Option (List Byte)}
    (hlen : ∀ d, r = some d → 1 ≤ d.length ∧ d.length ≤ 128) : (s.giveBack r).Inv := by
  obtain ⟨hp, hr, hd⟩ := h
  refine ⟨hp, fun d hmem => ?_, hd⟩
  rw [giveBack_returned, List.mem_append, List.mem_singleton] at hmem
  rcases hmem with hold | hnew
  · exact hr d hold
  · exact hlen d hnew.symm

/-- Taking the next event out of the list leaves the invariant, and that event is well formed. -/
theorem State.Inv.takeEvent {s : State} (h : s.Inv) {e : Event} {rest : List Event}
    (hpend : s.pending = e :: rest) : e.wellFormed = true ∧ (s.setPending rest).Inv := by
  obtain ⟨hp, hr, hd⟩ := h
  rw [hpend] at hp
  exact ⟨hp e List.mem_cons_self, fun e' he' => hp e' (List.mem_cons_of_mem e he'), hr, hd⟩

@[simp] theorem wellFormed_hread (addr : Byte) (n : Nat) :
    (Event.hread addr n).wellFormed = true ↔ n ≠ 0 := by
  simp [Event.wellFormed]

@[simp] theorem wellFormed_hwrite (addr : Byte) (d : List Byte) :
    (Event.hwrite addr d).wellFormed = true ↔ d ≠ [] := by
  simp [Event.wellFormed]

/-- A read that returns data returns as many bytes as it names, and no more than the window holds. -/
theorem memRead_length {s : State} {addr : Byte} {n : Nat} {d : List Byte}
    (h : s.memRead addr n = some d) : d.length = n ∧ n ≤ 128 := by
  by_cases hwin : addr.toNat + n ≤ 0x80
  · rw [memRead_window s addr n hwin] at h
    obtain rfl := Option.some.inj h
    exact ⟨List.length_ofFn, by omega⟩
  · by_cases hstat : addr = addrStatus ∧ n = 1
    · obtain ⟨rfl, rfl⟩ := hstat
      rw [memRead_status] at h
      obtain rfl := Option.some.inj h
      exact ⟨rfl, by omega⟩
    · rw [memRead_violation s addr n hwin hstat] at h
      cases h

theorem hread_keeps_inv {s : State} (h : s.Inv) (addr : Byte) {n : Nat} (hn : n ≠ 0) :
    ∃ t, hread addr n s = .next t ∧ t.Inv := by
  rcases hread_cases addr n s with ⟨d, hd, hx⟩ | ⟨_, hx⟩
  · refine ⟨_, hx, h.giveBack fun d' hd' => ?_⟩
    obtain rfl := Option.some.inj hd'
    have hlen := memRead_length hd
    omega
  · exact ⟨_, hx, h.contractViolation.giveBack fun _ hd' => by cases hd'⟩

theorem executeBy_keeps_inv {f : Performer} (hf : performsOperations f) {s : State} (h : s.Inv)
    (c : Byte) : ∃ t, executeBy f c s = .next t ∧ t.Inv := by
  rcases executeBy_cases f c s with ⟨i, _, hx⟩ | ⟨_, _, hx⟩
  · obtain ⟨r, hr, _⟩ := hf i s []
    exact ⟨_, hx.trans hr, h.writeS r⟩
  · exact ⟨_, hx, h.contractViolation⟩

theorem hwriteBy_keeps_inv {f : Performer} (hf : performsOperations f) {s : State} (h : s.Inv)
    (addr : Byte) (d : List Byte) : ∃ t, hwriteBy f addr d s = .next t ∧ t.Inv := by
  rcases hwriteBy_cases f addr d s with ⟨_, hx⟩ | ⟨c, _, _, hx⟩ | ⟨_, _, hx⟩
  · exact ⟨_, hx, h.writeWindow _ _⟩
  · rw [hx]
    exact executeBy_keeps_inv hf h c
  · exact ⟨_, hx, h.contractViolation⟩

theorem serveBy_keeps_inv {f : Performer} (hf : performsOperations f) {s : State} (h : s.Inv)
    {e : Event} (he : e.wellFormed = true) : ∃ t, serveBy f e s = .next t ∧ t.Inv := by
  cases e with
  | hread addr n =>
    have hn := (wellFormed_hread addr n).mp he
    rw [serveBy_hread f addr n s hn]
    exact hread_keeps_inv h addr hn
  | hwrite addr d =>
    have hd := (wellFormed_hwrite addr d).mp he
    rw [serveBy_hwrite f addr d s hd]
    exact hwriteBy_keeps_inv hf h addr d
  | reset => exact ⟨_, serveBy_reset f s, h.resetEngine⟩

/-- Whatever performs the operations, a step from a state of the invariant goes on and keeps it. -/
theorem stepBy_keeps_inv {f : Performer} (hf : performsOperations f) {s : State} (h : s.Inv) :
    ∃ t, stepBy f s = .next t ∧ t.Inv := by
  rcases stepBy_cases f s with ⟨_, hx⟩ | ⟨e, rest, hpend, hx⟩
  · exact ⟨s, hx, h⟩
  · obtain ⟨he, hrest⟩ := h.takeEvent hpend
    rw [hx]
    exact serveBy_keeps_inv hf hrest he

/-- Settles O44: the step of `core` and the step of `engine p` are one step function for two performers, and
that step keeps the invariant for either. -/
theorem everyStepKeepsInvAndGoesOn : Obligations.EveryStepKeepsInvAndGoesOn :=
  fun _ h => ⟨stepBy_keeps_inv exec_performsOperations h,
    fun p => stepBy_keeps_inv (execWith_performsOperations p) h⟩

/-! The words of bytes and the word operations as numbers (`00_scope.md` R11). -/

theorem be32_toNat (b0 b1 b2 b3 : Byte) :
    (be32 b0 b1 b2 b3).toNat =
      2 ^ 24 * b0.toNat + 2 ^ 16 * b1.toNat + 2 ^ 8 * b2.toNat + b3.toNat := by
  have h1 := b1.isLt
  have h2 := b2.isLt
  have h3 := b3.isLt
  unfold be32
  rw [BitVec.toNat_append, ← Nat.shiftLeft_add_eq_or_of_lt h3, BitVec.toNat_append,
    ← Nat.shiftLeft_add_eq_or_of_lt h2, BitVec.toNat_append, ← Nat.shiftLeft_add_eq_or_of_lt h1]
  simp only [Nat.shiftLeft_eq]
  omega

theorem le32_eq_be32 (b0 b1 b2 b3 : Byte) : le32 b0 b1 b2 b3 = be32 b3 b2 b1 b0 := rfl

/-- A byte field of a word, as a digit of the word's number. -/
theorem extractByte_eq {w : Word} {b : Byte} {k : Nat} (h : w.toNat / 2 ^ k % 2 ^ 8 = b.toNat) :
    w.extractLsb' k 8 = b := by
  apply BitVec.eq_of_toNat_eq
  rw [BitVec.extractLsb'_toNat, Nat.shiftRight_eq_div_pow, h]

/-- The four bytes of the word of four bytes, from the low end. -/
theorem extractBytes_be32 (b0 b1 b2 b3 : Byte) :
    (be32 b0 b1 b2 b3).extractLsb' 0 8 = b3 ∧ (be32 b0 b1 b2 b3).extractLsb' 8 8 = b2 ∧
    (be32 b0 b1 b2 b3).extractLsb' 16 8 = b1 ∧ (be32 b0 b1 b2 b3).extractLsb' 24 8 = b0 := by
  have h0 := b0.isLt
  have h1 := b1.isLt
  have h2 := b2.isLt
  have h3 := b3.isLt
  have hw := be32_toNat b0 b1 b2 b3
  refine ⟨extractByte_eq ?_, extractByte_eq ?_, extractByte_eq ?_, extractByte_eq ?_⟩ <;> omega

theorem be32Bytes_be32 (b0 b1 b2 b3 : Byte) : be32Bytes (be32 b0 b1 b2 b3) = #v[b0, b1, b2, b3] := by
  obtain ⟨h3, h2, h1, h0⟩ := extractBytes_be32 b0 b1 b2 b3
  simp only [be32Bytes, h0, h1, h2, h3]

theorem le32Bytes_le32 (b0 b1 b2 b3 : Byte) : le32Bytes (le32 b0 b1 b2 b3) = #v[b0, b1, b2, b3] := by
  obtain ⟨h0, h1, h2, h3⟩ := extractBytes_be32 b3 b2 b1 b0
  simp only [le32Bytes, le32_eq_be32, h0, h1, h2, h3]

theorem shr32_toNat (w : Word) (n : Nat) : (shr32 w n).toNat = w.toNat / 2 ^ n := by
  rw [shr32, BitVec.toNat_ushiftRight, Nat.shiftRight_eq_div_pow]

/-- A left shift by `32 - n` keeps the low `n` bits of the word, moved to the top. -/
theorem toNat_shiftLeft_complement (w : Word) {n : Nat} (hn : n ≤ 32) :
    (w <<< (32 - n)).toNat = 2 ^ (32 - n) * (w.toNat % 2 ^ n) := by
  have hpow : 2 ^ 32 = 2 ^ (32 - n) * 2 ^ n := by rw [← Nat.pow_add, Nat.sub_add_cancel hn]
  rw [BitVec.toNat_shiftLeft, Nat.shiftLeft_eq, Nat.mul_comm, hpow, Nat.mul_mod_mul_left]

/-- A rotation is the sum of its two shifts: they have no bit in common. -/
theorem rotr32_toNat (w : Word) {n : Nat} (hn : n ≤ 32) :
    (rotr32 w n).toNat = w.toNat / 2 ^ n + 2 ^ (32 - n) * (w.toNat % 2 ^ n) := by
  have hlow : w.toNat / 2 ^ n < 2 ^ (32 - n) := by
    apply Nat.div_lt_of_lt_mul
    rw [← Nat.pow_add, Nat.add_sub_cancel' hn]
    exact w.isLt
  rw [rotr32, BitVec.toNat_or, BitVec.toNat_ushiftRight, Nat.shiftRight_eq_div_pow,
    toNat_shiftLeft_complement w hn, Nat.or_comm, ← Nat.two_pow_add_eq_or_of_lt hlow, Nat.add_comm]

/-- Settles O7, each clause by the number of its word. -/
theorem wordArithmeticAsNumbers : Obligations.WordArithmeticAsNumbers := by
  refine ⟨fun b0 b1 b2 b3 => ⟨?_, be32_toNat b0 b1 b2 b3, le32Bytes_le32 b0 b1 b2 b3,
    be32Bytes_be32 b0 b1 b2 b3⟩, fun w n _ hn => ⟨rotr32_toNat w hn.le, shr32_toNat w n⟩,
    BitVec.toNat_add⟩
  rw [le32_eq_be32, be32_toNat]
  omega

/-! Multiplication by `x` (`00_scope.md` R12). -/

theorem xtime_toNat (a : Byte) : (xtime a).toNat =
    if a.toNat < 128 then 2 * a.toNat % 256 else (2 * a.toNat % 256) ^^^ 0x1B := by
  have hshift : (a <<< 1).toNat = 2 * a.toNat % 256 := by
    rw [BitVec.toNat_shiftLeft, Nat.shiftLeft_eq, Nat.mul_comm]
  unfold xtime
  rw [BitVec.msb_eq_decide]
  by_cases h : a.toNat < 128
  · rw [if_neg (by simpa using h), if_pos h, hshift]
  · rw [if_pos (by simpa using h), if_neg h, BitVec.toNat_xor, hshift]
    rfl

/-- The reduction is added once for each operand whose top bit is set, so twice where both are, and twice is
none. -/
theorem xtime_xor (a b : Byte) : xtime (a ^^^ b) = xtime a ^^^ xtime b := by
  unfold xtime
  rw [BitVec.msb_xor, BitVec.shiftLeft_xor_distrib]
  cases a.msb <;> cases b.msb
  · rfl
  · exact BitVec.xor_assoc ..
  · show a <<< 1 ^^^ b <<< 1 ^^^ 0x1B = a <<< 1 ^^^ 0x1B ^^^ b <<< 1
    ac_rfl
  · calc a <<< 1 ^^^ b <<< 1 = a <<< 1 ^^^ b <<< 1 ^^^ (0x1B ^^^ 0x1B) := BitVec.xor_zero.symm
      _ = (a <<< 1 ^^^ 0x1B) ^^^ (b <<< 1 ^^^ 0x1B) := by ac_rfl

/-- Settles O9, by the number of `xtime` and its law over exclusive-or; the two examples are computed. -/
theorem xtimeIsMultiplicationByX : Obligations.XtimeIsMultiplicationByX :=
  ⟨xtime_toNat, by decide, by decide, xtime_xor⟩

end Sys2Proof.Machine

namespace Sys2Proof

/-! The fields of a command byte as numbers (`30_encoding.md` R60), and the byte that decodes to an operation. -/

@[simp] theorem cmdOp_toNat (c : Byte) : (cmdOp c).toNat = c.toNat % 4 := by
  simp [cmdOp, BitVec.extractLsb'_toNat]

@[simp] theorem cmdLane_toNat (c : Byte) : (cmdLane c).toNat = c.toNat / 4 % 4 := by
  simp [cmdLane, BitVec.extractLsb'_toNat, Nat.shiftRight_eq_div_pow]

@[simp] theorem cmdKey_toNat (c : Byte) : (cmdKey c).toNat = c.toNat / 16 % 4 := by
  simp [cmdKey, BitVec.extractLsb'_toNat, Nat.shiftRight_eq_div_pow]

@[simp] theorem cmdRsv_toNat (c : Byte) : (cmdRsv c).toNat = c.toNat / 64 := by
  have h := c.isLt
  simp only [cmdRsv, BitVec.extractLsb'_toNat, Nat.shiftRight_eq_div_pow]
  omega

/-- The decoder's tests, as tests on the number of the byte. -/
theorem decodeByte_eq (c : Byte) :
    decodeByte c =
      if c.toNat / 64 ≠ 0 then .error .reservedBits
      else if c.toNat % 4 ≠ 3 ∧ (c.toNat / 4 % 4 ≠ 0 ∨ c.toNat / 16 % 4 ≠ 0) then .error .operandField
      else if c.toNat % 4 = 0 then .ok .aesc
      else if c.toNat % 4 = 1 then .ok .shac
      else if c.toNat % 4 = 2 then .ok .b3c
      else .ok (.aesr (cmdLane c).toFin (cmdKey c).toFin) := by
  simp [decodeByte, ← BitVec.toNat_inj]

/-- A byte that decodes to an operation is that operation's command byte: the tests fix every field of the
byte. -/
theorem encodeByte_of_decodeByte {c : Byte} {i : Instr} (h : decodeByte c = .ok i) :
    encodeByte i = c := by
  apply BitVec.eq_of_toNat_eq
  rw [decodeByte_eq] at h
  split at h
  · cases h
  split at h
  · cases h
  split at h
  · obtain rfl := Except.ok.inj h
    show 0 = _
    omega
  split at h
  · obtain rfl := Except.ok.inj h
    show 1 = _
    omega
  split at h
  · obtain rfl := Except.ok.inj h
    show 2 = _
    omega
  · obtain rfl := Except.ok.inj h
    show (0x03 + 4 * (cmdLane c).toNat + 16 * (cmdKey c).toNat) % 2 ^ 8 = _
    rw [cmdLane_toNat, cmdKey_toNat]
    omega

end Sys2Proof

namespace Sys2Proof.Machine

/-! The next event performed: what a command runs, and what the performer of the operations decides. -/

theorem executeBy_of_decodeByte (f : Performer) {c : Byte} {i : Instr} (h : decodeByte c = .ok i)
    (s : State) : executeBy f c s = f i s := by
  rw [executeBy, h]

/-- A write at `CMD` of bytes that decode to an operation performs it. -/
theorem serveBy_command (f : Performer) {bs : List Byte} {i : Instr} (h : decode bs = .ok i) (s : State) :
    serveBy f (.hwrite 0x80 bs) s = f i s := by
  match bs, h with
  | [c], h => exact executeBy_of_decodeByte f h s
  | [], h => cases h
  | _ :: _ :: _, h => cases h

/-- Settles O5, by the laws of a step and of a command. -/
theorem stepRunsDecodedInstruction : Obligations.StepRunsDecodedInstruction :=
  ⟨fun s _ _ _ hpend hdec => (step_event s hpend).trans (serveBy_command exec hdec _),
    fun s _ _ hpend => step_event s hpend, step_idle⟩

/-- The open parameters reach no command byte but that of `B3C`. -/
theorem executeBy_execWith_of_ne (p : Config.B3Params) {c : Byte} (hc : c ≠ encodeByte .b3c) (s : State) :
    executeBy (execWith p) c s = executeBy exec c s := by
  rcases executeBy_cases exec c s with ⟨i, hdec, hx⟩ | ⟨r, hdec, hx⟩
  · have hi : i ≠ .b3c := by
      rintro rfl
      exact hc (encodeByte_of_decodeByte hdec).symm
    rw [hx, executeBy_of_decodeByte _ hdec, execWith_of_ne_b3c p hi]
  · rw [executeBy, executeBy, hdec]

theorem hwriteBy_execWith_of_ne (p : Config.B3Params) {addr : Byte} {d : List Byte}
    (h : Event.hwrite addr d ≠ asmOp .b3c) (s : State) :
    hwriteBy (execWith p) addr d s = hwriteBy exec addr d s := by
  unfold hwriteBy
  split
  · rfl
  · split
    next c =>
      split
      · next haddr =>
        refine executeBy_execWith_of_ne p ?_ s
        rintro rfl
        exact h (by rw [haddr]; rfl)
      · rfl
    · rfl

/-- The open parameters reach no event but the command `B3C`. -/
theorem serveWith_of_ne (p : Config.B3Params) {e : Event} (h : e ≠ asmOp .b3c) (s : State) :
    serveWith p e s = serve e s := by
  unfold serveWith serve
  by_cases hw : e.wellFormed = true
  · cases e with
    | hread addr n =>
      have hn := (wellFormed_hread addr n).mp hw
      rw [serveBy_hread _ addr n s hn, serveBy_hread _ addr n s hn]
    | hwrite addr d =>
      have hd := (wellFormed_hwrite addr d).mp hw
      rw [serveBy_hwrite _ addr d s hd, serveBy_hwrite _ addr d s hd, hwriteBy_execWith_of_ne p h]
    | reset => rw [serveBy_reset, serveBy_reset]
  · rw [Bool.not_eq_true] at hw
    rw [serveBy_ill_formed _ e s hw, serveBy_ill_formed _ e s hw]

theorem engine_defaults_step (s : State) : (engine b3Defaults).step s = core.step s :=
  congrArg (stepBy · s) execWith_defaults

/-- Settles O49, clause by clause from the laws of a step and of an event. -/
theorem openParametersReachOnlyB3c : Obligations.OpenParametersReachOnlyB3c := by
  intro p s
  refine ⟨stepBy_idle (execWith p) s, fun e rest hpend he => ?_, fun rest hpend => ?_,
    engine_defaults_step s, fun i hi => execWith_of_ne_b3c p hi s, execWith_b3c p s⟩
  · rw [stepWith_event p s hpend, step_event s hpend, serveWith_of_ne p he]
  · rw [stepWith_event p s hpend]
    exact serveBy_command (execWith p) (i := .b3c) rfl _

/-! `B3C` in the words of its result, for any open parameters and at the defaults. -/

/-- Every little-endian word that `B3C` leaves in `S`, with the words of `B` written out as the rule has them. -/
theorem blake3Compress_le32 (p : Config.B3Params) (S B : Operand) (i : Nat) (h : i < 16) :
    le32 (blake3Compress p S B)[4 * i] (blake3Compress p S B)[4 * i + 1]
        (blake3Compress p S B)[4 * i + 2] (blake3Compress p S B)[4 * i + 3] =
      (b3Compress (p.cvDerive S)
        (Vector.ofFn fun n : Fin 16 =>
          le32 B[4 * n.val] B[4 * n.val + 1] B[4 * n.val + 2] B[4 * n.val + 3])
        0 p.blockLen 0)[i] := by
  rw [← leWords_getElem _ i h]
  simp only [leWords_blake3Compress]
  rfl

theorem firstHalfWords_eq (X : Operand) :
    firstHalfWords X = Vector.ofFn fun n : Fin 8 =>
      le32 X[4 * n.val] X[4 * n.val + 1] X[4 * n.val + 2] X[4 * n.val + 3] := by
  apply Vector.ext
  intro i hi
  rw [firstHalfWords_getElem X i hi, leWords_getElem X i (by omega), Vector.getElem_ofFn]

/-- Settles O27: the machine's `B3C` is the rule's result at the default chaining value. -/
theorem b3cAtTheDefaults : Obligations.B3cAtTheDefaults := by
  intro s
  refine ⟨s.writeS (blake3Compress b3Defaults s.S s.B), exec_eq_writeS .b3c s, fun i hi => ?_,
    sameButS_writeS s _⟩
  rw [← firstHalfWords_eq]
  exact blake3Compress_le32 b3Defaults s.S s.B i hi

/-! A step of one engine of a system. -/

theorem System.getElem_set_of_ne {n : Nat} (sys : System n) (t : State) {j k : Fin n} (hjk : j ≠ k) :
    (sys.set k t)[j] = sys[j] :=
  Vector.getElem_set_ne _ _ fun e => hjk (Fin.ext e.symm)

/-- Placing an outcome at `k` does it to `k` and leaves any other engine. -/
theorem place_frame {n : Nat} {sys a : System n} {j k : Fin n} {o : Host.Outcome State Fault Refusal}
    (hjk : j ≠ k) (h : sys.place k o = .next a) : o = .next a[k] ∧ a[j] = sys[j] := by
  obtain ⟨t, rfl, rfl⟩ := (place_eq_next sys a k o).mp h
  exact ⟨by simp, System.getElem_set_of_ne sys t hjk⟩

/-- Steps of two engines commute, each with a step function of its own: neither step sees the other's state, and
the two writes are at different places. -/
theorem place_comm {n : Nat} (f : Fin n → State → Host.Outcome State Fault Refusal) {j k : Fin n}
    {sys sysK sysKJ sysJ : System n} (hjk : j ≠ k) (hK : sys.place k (f k sys[k]) = .next sysK)
    (hKJ : sysK.place j (f j sysK[j]) = .next sysKJ) (hJ : sys.place j (f j sys[j]) = .next sysJ) :
    sysJ.place k (f k sysJ[k]) = .next sysKJ := by
  obtain ⟨t, ht, rfl⟩ := (place_eq_next ..).mp hK
  obtain ⟨u, hu, rfl⟩ := (place_eq_next ..).mp hJ
  rw [System.getElem_set_of_ne sys t hjk, hu] at hKJ
  rw [System.getElem_set_of_ne sys u hjk.symm, ht, ← hKJ]
  exact congrArg Host.Outcome.next (Vector.set_comm _ _ fun e => hjk (Fin.ext e))

/-- Settles O48: both kinds of system step are a placed step, which frames and commutes. -/
theorem instancesDoNotInteract : Obligations.InstancesDoNotInteract :=
  ⟨fun _ _ _ _ _ hjk h => place_frame hjk h,
    fun _ _ _ _ _ _ _ hjk ha hb hc => place_comm (fun _ => step) hjk ha hb hc,
    fun _ _ _ _ _ _ hjk h => place_frame hjk h,
    fun _ p _ _ _ _ _ _ hjk ha hb hc => place_comm (fun i => stepWith (p i)) hjk ha hb hc⟩

/-- Settles O50: the four steps of `CALL` in order, each by its own law. -/
theorem callB3cForEveryParameters : Obligations.CallB3cForEveryParameters := by
  intro p s st blk rest
  refine ⟨_, rfl, ?_⟩
  rw [asmCall, List.cons_append, engine_run_succ_next p 3 (stepBy_asmLds _ s st _),
    List.cons_append, engine_run_succ_next p 2 (stepBy_asmLdb _ _ blk _),
    List.cons_append, engine_run_succ_next p 1 (stepWith_asmOp p _ .b3c _),
    List.cons_append, engine_run_succ_next p 0 (stepBy_asmRds _ _ _)]
  rfl

end Sys2Proof.Machine

namespace Sys2Proof.Machine

/-! Which events are contract violations (`60_exceptions.md` R150), as conditions on the address, the length and
the command byte. -/

/-- An access touches a range exactly if it is not empty, ends past the range's start and begins by its end. -/
theorem accessTouches_iff {a : Byte} {n lo hi : Nat} (h : lo ≤ hi) :
    accessTouches a n lo hi ↔ n ≠ 0 ∧ lo < a.toNat + n ∧ a.toNat ≤ hi := by
  constructor
  · rintro ⟨k, hk, hlo, hhi⟩
    omega
  · rintro ⟨hn, hend, hstart⟩
    exact ⟨lo - a.toNat, by omega, by omega, by omega⟩

/-- The causes V3 to V7 of a read are together the third arm of `MemRead`. -/
theorem hread_accessCause_iff {a : Byte} {n : Nat} (hn : n ≠ 0) :
    (∃ c ∈ [Cause.v3, .v4, .v5, .v6, .v7], (Event.hread a n).hasCause c) ↔
      ¬ a.toNat + n ≤ 0x80 ∧ ¬ (a.toNat = 0x81 ∧ n = 1) := by
  have ha := a.isLt
  simp only [List.exists_mem_cons_iff, List.not_mem_nil, false_and, exists_false, or_false, false_or,
    Event.hasCause, accessTouches_iff (show 0x82 ≤ 0xFF by decide), accessTouches_iff (Nat.le_refl 0x80)]
  omega

/-- The causes V3 to V7 of a write are together the third arm of `MemWrite`. -/
theorem hwrite_accessCause_iff {a : Byte} {d : List Byte} (hd : d ≠ []) :
    (∃ c ∈ [Cause.v3, .v4, .v5, .v6, .v7], (Event.hwrite a d).hasCause c) ↔
      ¬ a.toNat + d.length ≤ 0x80 ∧ ¬ (a.toNat = 0x80 ∧ d.length = 1) := by
  have ha := a.isLt
  have hlen := List.length_pos_iff.mpr hd
  simp only [List.exists_mem_cons_iff, List.not_mem_nil, false_and, exists_false, or_false, false_or,
    Event.hasCause, accessTouches_iff (show 0x82 ≤ 0xFF by decide), accessTouches_iff (Nat.le_refl 0x81)]
  omega

/-- The bytes that are no command are the two classes of `30_encoding.md` R65. -/
theorem decodeByte_rejects_iff (c : Byte) :
    (¬ ∃ i, decodeByte c = .ok i) ↔
      c.toNat / 64 ≠ 0 ∨ (c.toNat / 64 = 0 ∧ c.toNat % 4 ≠ 3 ∧ c.toNat / 4 % 16 ≠ 0) := by
  rw [decodeByte_eq]
  by_cases hrsv : c.toNat / 64 ≠ 0
  · simp [hrsv]
  by_cases hfield : c.toNat % 4 ≠ 3 ∧ (c.toNat / 4 % 4 ≠ 0 ∨ c.toNat / 16 % 4 ≠ 0)
  · rw [if_neg hrsv, if_pos hfield]
    exact iff_of_true nofun (by omega)
  · rw [if_neg hrsv, if_neg hfield]
    refine iff_of_false (not_not_intro ?_) (by omega)
    split_ifs <;> exact ⟨_, rfl⟩

/-- The causes V1 and V2 are together the writes of one undecodable byte at `CMD`. -/
theorem hwrite_commandCause_iff {a : Byte} {d : List Byte} :
    (∃ c ∈ [Cause.v1, .v2], (Event.hwrite a d).hasCause c) ↔
      a.toNat = 0x80 ∧ d.length = 1 ∧ ¬ ∃ i, decode d = .ok i := by
  simp only [List.exists_mem_cons_iff, List.not_mem_nil, false_and, exists_false, Event.hasCause, or_false]
  constructor
  · rintro (⟨ha, c, rfl, hc⟩ | ⟨ha, c, rfl, hc⟩)
    · exact ⟨ha, rfl, (decodeByte_rejects_iff c).mpr (.inl hc)⟩
    · exact ⟨ha, rfl, (decodeByte_rejects_iff c).mpr (.inr hc)⟩
  · rintro ⟨ha, hlen, hdec⟩
    obtain ⟨c, rfl⟩ := List.length_eq_one_iff.mp hlen
    rcases (decodeByte_rejects_iff c).mp hdec with hc | hc
    · exact .inl ⟨ha, c, rfl, hc⟩
    · exact .inr ⟨ha, c, rfl, hc⟩

/-- An event violates for a cause of its command byte or for a cause of its access. -/
theorem violates_iff (e : Event) :
    e.violates ↔ (∃ c ∈ [Cause.v1, .v2], e.hasCause c) ∨
      ∃ c ∈ [Cause.v3, .v4, .v5, .v6, .v7], e.hasCause c := by
  constructor
  · rintro ⟨c, hc⟩
    have hmem : c ∈ [Cause.v1, .v2] ∨ c ∈ [Cause.v3, .v4, .v5, .v6, .v7] := by cases c <;> decide
    exact hmem.imp (fun h => ⟨c, h, hc⟩) (fun h => ⟨c, h, hc⟩)
  · rintro (⟨c, _, hc⟩ | ⟨c, _, hc⟩) <;> exact ⟨c, hc⟩

theorem hread_violates_iff {a : Byte} {n : Nat} (hn : n ≠ 0) :
    (Event.hread a n).violates ↔ ¬ a.toNat + n ≤ 0x80 ∧ ¬ (a.toNat = 0x81 ∧ n = 1) := by
  rw [violates_iff, hread_accessCause_iff hn]
  simp [Event.hasCause]

/-- A length other than one is the access's fault, and one undecodable byte the command's. -/
theorem hwrite_violates_iff {a : Byte} {d : List Byte} (hd : d ≠ []) :
    (Event.hwrite a d).violates ↔
      ¬ a.toNat + d.length ≤ 0x80 ∧ ¬ (a.toNat = 0x80 ∧ ∃ i, decode d = .ok i) := by
  have hone : (∃ i, decode d = .ok i) → d.length = 1 := by
    rintro ⟨i, hi⟩
    match d, hi with
    | [_], _ => rfl
  rw [violates_iff, hwrite_accessCause_iff hd, hwrite_commandCause_iff]
  by_cases hdec : ∃ i, decode d = .ok i
  · simp [hdec, hone hdec]
  · simp only [hdec, not_false_eq_true, and_true, and_false]
    omega

theorem not_violates_reset : ¬ Event.reset.violates := fun ⟨_, hc⟩ => hc

theorem not_violates_asmOp (i : Instr) : ¬ (asmOp i).violates := by
  rw [asmOp, asmCmd, hwrite_violates_iff (by simp)]
  exact fun h => h.2 ⟨rfl, i, decodeByte_encodeByte i⟩

/-! What a violating event does (`60_exceptions.md` R151). -/

theorem memRead_eq_none_iff {s : State} {a : Byte} {n : Nat} (hn : n ≠ 0) :
    s.memRead a n = none ↔ (Event.hread a n).violates := by
  have hstat : a = addrStatus ↔ a.toNat = 0x81 := BitVec.toNat_inj.symm
  rw [hread_violates_iff hn, ← hstat]
  by_cases hwin : a.toNat + n ≤ 0x80
  · simp [memRead_window s a n hwin, hwin]
  · by_cases h : a = addrStatus ∧ n = 1
    · obtain ⟨rfl, rfl⟩ := h
      simp [memRead_status]
    · simp [memRead_violation s a n hwin h, hwin, h]

theorem serve_hread_of_violates {a : Byte} {n : Nat} (hn : n ≠ 0) (hv : (Event.hread a n).violates)
    (s : State) : serve (.hread a n) s = .next (s.contractViolation.giveBack none) := by
  rw [serve_hread a n s hn, hread, (memRead_eq_none_iff hn).mpr hv]

theorem serve_hwrite_of_violates {a : Byte} {d : List Byte} (hd : d ≠ []) (hv : (Event.hwrite a d).violates)
    (s : State) : serve (.hwrite a d) s = .next s.contractViolation := by
  obtain ⟨hwin, hcmd⟩ := (hwrite_violates_iff hd).mp hv
  rw [serve_hwrite a d s hd]
  rcases hwrite_cases a d s with ⟨h, _⟩ | ⟨c, rfl, rfl, hx⟩ | ⟨_, _, hx⟩
  · exact absurd h hwin
  · rcases execute_cases c s with ⟨i, hdec, _⟩ | ⟨_, _, hx'⟩
    · exact absurd ⟨rfl, i, hdec⟩ hcmd
    · exact hx.trans hx'
  · exact hx

/-! Everything an event that answers a next state can do. -/

/-- `Served s e t`: performing the event `e` on `s` leaves `t`, in one of the ways the spec has. -/
inductive Served (s : State) : Event → State → Prop
  /-- Reset (`70_reset_and_hazards.md` R171). -/
  | reset : Served s .reset s.resetEngine
  /-- A write inside the operand window (`20_memory.md` R45). -/
  | windowWrite {a : Byte} {d : List Byte} (hd : d ≠ []) (hwin : a.toNat + d.length ≤ 0x80) :
    Served s (.hwrite a d) (s.writeWindow a.toNat d)
  /-- A legal command (`30_encoding.md` R61). -/
  | command (i : Instr) : Served s (asmOp i) (s.writeS (commandResult i s.S s.B))
  /-- A read that gives back data (`20_memory.md` R44). -/
  | read {a : Byte} {n : Nat} {data : List Byte} (hdata : s.memRead a n = some data)
    (hv : ¬ (Event.hread a n).violates) : Served s (.hread a n) (s.giveBack (some data))
  /-- A violating read (`60_exceptions.md` R151). -/
  | badRead {a : Byte} {n : Nat} (hv : (Event.hread a n).violates) :
    Served s (.hread a n) (s.contractViolation.giveBack none)
  /-- A violating write (R151). -/
  | badWrite {a : Byte} {d : List Byte} (hv : (Event.hwrite a d).violates) :
    Served s (.hwrite a d) s.contractViolation

theorem wellFormed_of_serve_next {e : Event} {s t : State} (h : serve e s = .next t) :
    e.wellFormed = true := by
  by_contra hw
  rw [serve_ill_formed e s (Bool.eq_false_of_not_eq_true hw)] at h
  cases h

theorem served_of_hread {a : Byte} {n : Nat} {s t : State} (hn : n ≠ 0)
    (h : serve (.hread a n) s = .next t) : Served s (.hread a n) t := by
  by_cases hv : (Event.hread a n).violates
  · rw [serve_hread_of_violates hn hv, Host.Outcome.next.injEq] at h
    subst h
    exact .badRead hv
  · rw [serve_hread a n s hn] at h
    rcases hread_cases a n s with ⟨data, hdata, hx⟩ | ⟨hnone, _⟩
    · rw [hx, Host.Outcome.next.injEq] at h
      subst h
      exact .read hdata hv
    · exact absurd ((memRead_eq_none_iff hn).mp hnone) hv

theorem served_of_hwrite {a : Byte} {d : List Byte} {s t : State} (hd : d ≠ [])
    (h : serve (.hwrite a d) s = .next t) : Served s (.hwrite a d) t := by
  by_cases hv : (Event.hwrite a d).violates
  · rw [serve_hwrite_of_violates hd hv, Host.Outcome.next.injEq] at h
    subst h
    exact .badWrite hv
  · rw [hwrite_violates_iff hd, not_and_or, not_not, not_not] at hv
    rcases hv with hwin | ⟨ha, i, hdec⟩
    · rw [serve_hwrite a d s hd, hwrite_window a d s hwin, Host.Outcome.next.injEq] at h
      subst h
      exact .windowWrite hd hwin
    · obtain rfl : a = 0x80 := BitVec.eq_of_toNat_eq ha
      rw [serve, serveBy_command exec hdec, exec_eq_writeS, Host.Outcome.next.injEq] at h
      subst h
      match d, hdec with
      | [c], hdec =>
        obtain rfl := encodeByte_of_decodeByte hdec
        exact .command i

theorem served_of_serve {e : Event} {s t : State} (h : serve e s = .next t) : Served s e t := by
  have hw := wellFormed_of_serve_next h
  cases e with
  | hread a n => exact served_of_hread ((wellFormed_hread a n).mp hw) h
  | hwrite a d => exact served_of_hwrite ((wellFormed_hwrite a d).mp hw) h
  | reset =>
    rw [serve_reset, Host.Outcome.next.injEq] at h
    subst h
    exact .reset

theorem served_of_step {e : Event} {rest : List Event} {s t : State} (hpend : s.pending = e :: rest)
    (h : step s = .next t) : Served (s.setPending rest) e t :=
  served_of_serve ((step_event s hpend).symm.trans h)

/-- How an event moves `ERR`: only a reset clears it, and only a violation sets it. -/
theorem Served.err {s t : State} {e : Event} (h : Served s e t) :
    (e = .reset → t.ERR = 0) ∧ (e ≠ .reset → e.violates → t.ERR = 1) ∧
      (e ≠ .reset → ¬ e.violates → t.ERR = s.ERR) := by
  cases h with
  | reset => exact ⟨fun _ => rfl, fun hne => absurd rfl hne, fun hne => absurd rfl hne⟩
  | windowWrite hd hwin =>
    exact ⟨nofun, fun _ hv => absurd hwin ((hwrite_violates_iff hd).mp hv).1, fun _ _ => rfl⟩
  | command i => exact ⟨nofun, fun _ hv => absurd hv (not_violates_asmOp i), fun _ _ => rfl⟩
  | read _ hv => exact ⟨nofun, fun _ hv' => absurd hv' hv, fun _ _ => rfl⟩
  | badRead hv => exact ⟨nofun, fun _ _ => rfl, fun _ hv' => absurd hv hv'⟩
  | badWrite hv => exact ⟨nofun, fun _ _ => rfl, fun _ hv' => absurd hv hv'⟩

/-- Settles O31: `ERR` by what the event did, and a command by the bytes of its operands alone. -/
theorem errIsStickyUntilReset : Obligations.ErrIsStickyUntilReset :=
  ⟨fun _ _ _ _ hpend hstep => (served_of_step hpend hstep).err,
    fun i s b => ⟨_, exec_eq_writeS i s, exec_eq_writeS i { s with ERR := b }⟩, rfl⟩

/-- What an event that is no reset and no window write leaves of the operands (`10_state.md` R20, R21). -/
theorem Served.operands {s t : State} {e : Event} (h : Served s e t) (hreset : e ≠ .reset)
    (hwrite : ∀ (a : Byte) (d : List Byte), e = .hwrite a d → ¬ a.toNat + d.length ≤ 0x80) :
    t.B = s.B ∧ ((∀ i : Instr, e ≠ asmOp i) → t.S = s.S) := by
  cases h with
  | reset => exact absurd rfl hreset
  | windowWrite _ hwin => exact absurd hwin (hwrite _ _ rfl)
  | command i => exact ⟨rfl, fun hcmd => absurd rfl (hcmd i)⟩
  | read _ _ => exact ⟨rfl, fun _ => rfl⟩
  | badRead _ => exact ⟨rfl, fun _ => rfl⟩
  | badWrite _ => exact ⟨rfl, fun _ => rfl⟩

/-- Settles O40, by what the event did. -/
theorem onlyWritesCommandsAndResetChangeOperands :
    Obligations.OnlyWritesCommandsAndResetChangeOperands :=
  fun _ _ _ _ hpend hstep hreset hwrite => (served_of_step hpend hstep).operands hreset hwrite

/-! The registers `STATUS` and `CMD` (`10_state.md` R27, R28). -/

theorem statusByte_toNat (s : State) : s.statusByte.toNat = s.ERR.toNat :=
  BitVec.toNat_setWidth_of_le (by decide)

theorem serve_hread_status (s : State) :
    serve (.hread addrStatus 1) s = .next (s.giveBack (some [s.statusByte])) := by
  rw [serve_hread addrStatus 1 s Nat.one_ne_zero, hread, memRead_status]

/-- A write that begins at `STATUS` touches it. -/
theorem hwrite_status_violates {d : List Byte} (hd : d ≠ []) : (Event.hwrite addrStatus d).violates :=
  ⟨.v5, 0, List.length_pos_iff.mpr hd, Nat.le_refl 0x81, Nat.le_refl 0x81⟩

/-- A read that begins at `CMD` touches it. -/
theorem hread_cmd_violates {n : Nat} (hn : n ≠ 0) : (Event.hread addrCmd n).violates :=
  ⟨.v4, 0, Nat.pos_of_ne_zero hn, Nat.le_refl 0x80, Nat.le_refl 0x80⟩

/-- Settles O36: the read by `MemRead` at `STATUS`, the write as a violation. -/
theorem statusIsAWindowOntoErr : Obligations.StatusIsAWindowOntoErr :=
  ⟨fun s => ⟨s.statusByte, statusByte_toNat s, serve_hread_status s⟩,
    fun _ s hd => serve_hwrite_of_violates hd (hwrite_status_violates hd) s, rfl⟩

/-- Settles O37: the write is the command by the law of `CMD`, the read a violation. -/
theorem cmdIsAWriteOnlyTrigger : Obligations.CmdIsAWriteOnlyTrigger :=
  ⟨fun c s => (serve_hwrite addrCmd [c] s (List.cons_ne_nil c [])).trans (hwrite_cmd c s),
    fun _ s hn => serve_hread_of_violates hn (hread_cmd_violates hn) s⟩

/-! The bytes a command reads and writes (`10_state.md` R30). -/

theorem opw_getElem_S (s : State) {k : Nat} (h : k < 64) : s.opw[k] = s.S[k] := by
  rw [opw_getElem s k (by omega), dif_pos h]

theorem opw_getElem_B (s : State) {k : Nat} (h : k < 64) : s.opw[64 + k] = s.B[k] := by
  rw [opw_getElem s (64 + k) (by omega), dif_neg (by omega)]
  simp only [Nat.add_sub_cancel_left]

/-- A byte that a command does not write keeps its value. -/
theorem commandResult_frame {i : Instr} (S B : Operand) {k : Nat} (hk : k < 64) (hw : ¬ writesByte i k) :
    (commandResult i S B)[k] = S[k] := by
  cases i with
  | aesr l key => exact (setLane_getElem S l _ k hk).trans (if_neg hw)
  | _ => exact absurd hk hw

/-- Settles O30, by the one law of a command and the frame of its result. -/
theorem everyCommandCompletesInItsFrame : Obligations.EveryCommandCompletesInItsFrame :=
  fun i s => ⟨_, exec_eq_writeS i s, fun _ hk hw => commandResult_frame s.S s.B hk hw,
    sameButS_writeS s _⟩

theorem lane_congr {X Y : Operand} {j : Fin 4}
    (h : ∀ (i : Nat) (_ : i < 64), i / 16 = j.val → X[i] = Y[i]) : lane X j = lane Y j := by
  apply Vector.ext
  intro i hi
  rw [lane_getElem X j i hi, lane_getElem Y j i hi]
  exact h _ (by omega) (by omega)

theorem firstHalfWords_congr {X Y : Operand} (h : ∀ (i : Nat) (_ : i < 32), X[i] = Y[i]) :
    firstHalfWords X = firstHalfWords Y := by
  apply Vector.ext
  intro i hi
  rw [firstHalfWords_getElem X i hi, firstHalfWords_getElem Y i hi, leWords_getElem X i (by omega),
    leWords_getElem Y i (by omega), h (4 * i) (by omega), h (4 * i + 1) (by omega),
    h (4 * i + 2) (by omega), h (4 * i + 3) (by omega)]

/-- `B3C` reads `S` through its chaining value alone (`42_blake3.md` R126). -/
theorem blake3Compress_congr {p : Config.B3Params} {S S' : Operand} (h : p.cvDerive S = p.cvDerive S')
    (B : Operand) : blake3Compress p S B = blake3Compress p S' B := by
  unfold blake3Compress
  rw [h]

/-- The written bytes of a command's result depend on the operand bytes it reads alone. -/
theorem commandResult_congr {i : Instr} {S S' B B' : Operand}
    (hS : ∀ (k : Nat) (_ : k < 64), readsByte i k → S[k] = S'[k])
    (hB : ∀ (k : Nat) (_ : k < 64), readsByte i (64 + k) → B[k] = B'[k])
    {k : Nat} (hk : k < 64) (hw : writesByte i k) :
    (commandResult i S B)[k] = (commandResult i S' B')[k] := by
  cases i with
  | aesc | shac =>
    obtain rfl : S = S' := Vector.ext fun j hj => hS j hj (show j < 128 by omega)
    obtain rfl : B = B' := Vector.ext fun j hj => hB j hj (show 64 + j < 128 by omega)
    rfl
  | b3c =>
    obtain rfl : B = B' := Vector.ext fun j hj => hB j hj (.inr (by omega))
    have hcv : b3Defaults.cvDerive S = b3Defaults.cvDerive S' :=
      firstHalfWords_congr fun j hj => hS j (by omega) (.inl hj)
    exact congrArg (·[k]) (blake3Compress_congr hcv B)
  | aesr l key =>
    have hlane : lane S l = lane S' l := lane_congr fun j hj hjl => hS j hj (.inl hjl)
    have hkey : lane B key = lane B' key := lane_congr fun j hj hjk => hB j hj (.inr (by omega))
    have hkl : k / 16 = l.val := hw
    simp only [commandResult, setLane_getElem _ _ _ k hk, hkl, if_true, hlane, hkey]

/-- Settles O29: a command leaves its result in `S`, and the window bytes are those of the two operands. -/
theorem commandDependsOnlyOnBytesItReads : Obligations.CommandDependsOnlyOnBytesItReads := by
  intro i s s' t t' ht ht' hreads k hk hw
  rw [exec_eq_writeS, Host.Outcome.next.injEq] at ht ht'
  subst ht ht'
  refine commandResult_congr (fun j hj hr => ?_) (fun j hj hr => ?_) hk hw
  · rw [← opw_getElem_S s hj, ← opw_getElem_S s' hj]
    exact hreads j (by omega) hr
  · rw [← opw_getElem_B s hj, ← opw_getElem_B s' hj]
    exact hreads (64 + j) (by omega) hr

end Sys2Proof.Machine

namespace Sys2Proof.Machine

/-! A transaction's data as one number (`20_memory.md` R42). -/

/-- Settles O8, by induction on the bytes: the first byte has weight 1, and each later one 256 times its weight
in the rest. -/
theorem leNumberIsTheWeightedSum : Obligations.LeNumberIsTheWeightedSum := by
  intro d
  induction d with
  | nil => rfl
  | cons b bs ih =>
    have hweight (i : Nat) : ((b :: bs).getD (i + 1) 0).toNat * 256 ^ (i + 1) =
        256 * ((bs.getD i 0).toNat * 256 ^ i) := by
      rw [List.getD_cons_succ]
      ring
    rw [leNumber, ih, List.length_cons, List.range_succ_eq_map, List.map_cons, List.sum_cons,
      List.map_map, ← List.sum_map_mul_left]
    simp only [Function.comp_def, Nat.succ_eq_add_one, hweight, List.getD_cons_zero, pow_zero, mul_one]

/-! The operand window as a list of bytes: what a read takes out of it and what a write leaves in it
(`20_memory.md` R44, R45). -/

@[simp] theorem window_length (s : State) : s.window.length = 128 := by
  simp [State.window]

theorem window_take_length (s : State) {a : Nat} (h : a ≤ 128) : (s.window.take a).length = a := by
  rw [List.length_take, window_length, Nat.min_eq_left h]

theorem window_getElem (s : State) {k : Nat} (h : k < s.window.length) :
    s.window[k] = s.opw[k]'(window_length s ▸ h) := by
  have hwin : s.window = s.opw.toList := (Vector.toList_append).symm
  simp only [hwin, Vector.getElem_toList]

/-- A read inside the window gives back the bytes of the window from its address on. -/
theorem memRead_eq_take_drop (s : State) {a : Byte} {n : Nat} (h : a.toNat + n ≤ 0x80) :
    s.memRead a n = some ((s.window.drop a.toNat).take n) := by
  rw [memRead_window s a n h]
  congr 1
  apply List.ext_getElem
  · rw [List.length_ofFn, List.length_take, List.length_drop, window_length]
    omega
  · intro k _ _
    rw [List.getElem_ofFn, List.getElem_take, List.getElem_drop, window_getElem]

/-- A write inside the window replaces the bytes from its address on, and no others. -/
theorem window_writeWindow (s : State) {a : Nat} {d : List Byte} (h : a + d.length ≤ 0x80) :
    (s.writeWindow a d).window = s.window.take a ++ d ++ s.window.drop (a + d.length) := by
  have hbefore : (s.window.take a).length = a := window_take_length s (by omega)
  have hwritten : (s.window.take a ++ d).length = a + d.length := by rw [List.length_append, hbefore]
  apply List.ext_getElem
  · rw [List.length_append, hwritten, List.length_drop, window_length, window_length]
    omega
  · intro k hk _
    rw [window_getElem, writeWindow_opw_getElem, ← window_getElem s (by simpa using hk)]
    by_cases hlow : k < a
    · rw [patchByte_outside _ (.inl hlow), List.getElem_append_left (by omega),
        List.getElem_append_left (by omega), List.getElem_take]
    by_cases hin : k < a + d.length
    · rw [patchByte_inside _ (by omega) hin, List.getElem_append_left (by omega),
        List.getElem_append_right (by omega)]
      simp only [hbefore]
    · rw [patchByte_outside _ (.inr (by omega)), List.getElem_append_right (by omega), List.getElem_drop]
      congr 1
      omega

/-- A read of the bytes just written gives back the data. -/
theorem memRead_writeWindow (s : State) {a : Byte} {d : List Byte} (h : a.toNat + d.length ≤ 0x80) :
    (s.writeWindow a.toNat d).memRead a d.length = some d := by
  rw [memRead_eq_take_drop _ h, window_writeWindow s h, List.append_assoc,
    List.drop_left' (window_take_length s (by omega)), List.take_left]

theorem serve_hread_of_memRead {a : Byte} {n : Nat} {s : State} {data : List Byte} (hn : n ≠ 0)
    (h : s.memRead a n = some data) : serve (.hread a n) s = .next (s.giveBack (some data)) := by
  rw [serve_hread a n s hn, hread, h]

theorem serve_hwrite_window {a : Byte} {d : List Byte} (hd : d ≠ []) (h : a.toNat + d.length ≤ 0x80)
    (s : State) : serve (.hwrite a d) s = .next (s.writeWindow a.toNat d) :=
  (serve_hwrite a d s hd).trans (hwrite_window a d s h)

theorem statusByte_eq_ofNat (s : State) : s.statusByte = BitVec.ofNat 8 s.ERR.toNat := by
  rw [← statusByte_toNat, BitVec.ofNat_toNat, BitVec.setWidth_eq]

/-- Settles O34: the window arm by `MemRead`'s bytes, the second as `STATUS`, the third as a violation. -/
theorem hreadMeetsMemRead : Obligations.HreadMeetsMemRead := by
  intro a n s hn
  by_cases hwin : a.toNat + n ≤ 0x80
  · rw [if_pos hwin]
    exact serve_hread_of_memRead hn (memRead_eq_take_drop s hwin)
  rw [if_neg hwin]
  by_cases hstat : a.toNat = 0x81 ∧ n = 1
  · rw [if_pos hstat, ← statusByte_eq_ofNat]
    obtain ⟨ha, rfl⟩ := hstat
    obtain rfl : a = addrStatus := BitVec.eq_of_toNat_eq ha
    exact serve_hread_status s
  · rw [if_neg hstat]
    exact serve_hread_of_violates hn ((hread_violates_iff hn).mpr ⟨hwin, hstat⟩) s

/-- Settles O35: the window arm by the window of a write, the second as a command, the third as a violation. -/
theorem hwriteMeetsMemWrite : Obligations.HwriteMeetsMemWrite := by
  intro a d s hd
  split
  next hwin =>
    exact ⟨_, serve_hwrite_window hd hwin s, window_writeWindow s hwin, rfl, rfl, rfl, rfl⟩
  next hwin =>
    split
    next hcmd =>
      obtain ⟨ha, hlen⟩ := hcmd
      obtain rfl : a = addrCmd := BitVec.eq_of_toNat_eq ha
      obtain ⟨c, rfl⟩ := List.length_eq_one_iff.mp hlen
      exact ⟨c, rfl, serve_hwrite addrCmd [c] s hd⟩
    next hcmd =>
      have hcause := (hwrite_accessCause_iff hd).mpr ⟨hwin, hcmd⟩
      exact serve_hwrite_of_violates hd ((violates_iff _).mpr (.inr hcause)) s

/-- Settles O38, by the step of the write and the step of the read on the window it leaves. -/
theorem writeThenReadReturnsData : Obligations.WriteThenReadReturnsData := by
  intro s a d rest hd hwin
  have hlen : d.length ≠ 0 := fun h => hd (List.length_eq_zero_iff.mp h)
  have hwrite : step (s.setPending (.hwrite a d :: .hread a d.length :: rest)) =
      .next ((s.writeWindow a.toNat d).setPending (.hread a d.length :: rest)) :=
    (step_event _ rfl).trans (serve_hwrite_window hd hwin _)
  have hread : step ((s.writeWindow a.toNat d).setPending (.hread a d.length :: rest)) =
      .next (((s.writeWindow a.toNat d).giveBack (some d)).setPending rest) :=
    (step_event _ rfl).trans (serve_hread_of_memRead hlen (memRead_writeWindow s hwin))
  exact ⟨_, (run_succ_next 1 hwrite).trans (run_succ_next 0 hread), rfl, rfl, rfl⟩

/-! Window writes one after the other (`20_memory.md` R46, R52). -/

/-- Two adjacent writes leave in each byte what the one write of both leaves. -/
theorem patchByte_append (a : Nat) (d1 d2 : List Byte) (k : Nat) (old : Byte) :
    patchByte (a + d1.length) d2 k (patchByte a d1 k old) = patchByte a (d1 ++ d2) k old := by
  by_cases hfirst : k < a + d1.length
  · rw [patchByte_outside _ (.inl hfirst)]
    by_cases hlow : k < a
    · rw [patchByte_outside _ (.inl hlow), patchByte_outside _ (.inl hlow)]
    · rw [patchByte_inside _ (by omega) hfirst,
        patchByte_inside _ (by omega) (by rw [List.length_append]; omega),
        List.getElem_append_left]
  · rw [patchByte_outside old (.inr (by omega)), patchByte, patchByte, if_pos (by omega),
      if_pos (by omega), List.getElem?_append_right (by omega), Nat.sub_add_eq]

theorem patchByte_idem (a : Nat) (d : List Byte) (k : Nat) (old : Byte) :
    patchByte a d k (patchByte a d k old) = patchByte a d k old := by
  by_cases hin : a ≤ k ∧ k < a + d.length
  · rw [patchByte_inside _ hin.1 hin.2, patchByte_inside _ hin.1 hin.2]
  · rw [patchByte_outside _ (by omega)]

/-- Two window writes are a third where they are so on every byte. -/
theorem writeWindow_writeWindow (s : State) {a1 a2 a : Nat} {d1 d2 d : List Byte}
    (h : ∀ k old, patchByte a2 d2 k (patchByte a1 d1 k old) = patchByte a d k old) :
    (s.writeWindow a1 d1).writeWindow a2 d2 = s.writeWindow a d := by
  have hop (base : Nat) (X : Operand) :
      patchOperand base a2 d2 (patchOperand base a1 d1 X) = patchOperand base a d X := by
    apply Vector.ext
    intro i hi
    simp only [patchOperand_getElem _ _ _ _ i hi, h]
  simp only [State.writeWindow, hop]

/-- Settles O39: on every byte the two halves are the whole, and a repetition is the write itself. -/
theorem splitAndRepeatedWritesAgree : Obligations.SplitAndRepeatedWritesAgree := by
  constructor
  · intro s a d1 d2 hd1 hd2 hwin
    rw [List.length_append] at hwin
    have hnext : (a + BitVec.ofNat 8 d1.length).toNat = a.toNat + d1.length := by
      rw [BitVec.toNat_add, BitVec.toNat_ofNat]
      omega
    refine ⟨s.writeWindow a.toNat (d1 ++ d2), _,
      serve_hwrite_window (List.append_ne_nil_of_left_ne_nil hd1 d2) (by rwa [List.length_append]) s,
      serve_hwrite_window hd1 (by omega) s, ?_⟩
    rw [serve_hwrite_window hd2 (by omega), hnext,
      writeWindow_writeWindow s (patchByte_append a.toNat d1 d2)]
  · intro s a d hd hwin
    refine ⟨_, serve_hwrite_window hd hwin s, ?_⟩
    rw [serve_hwrite_window hd hwin, writeWindow_writeWindow s (patchByte_idem a.toNat d)]

/-! A run as the fold of its events (`20_memory.md` R47). -/

/-- The machine for any performer of the operations: `core` and every `engine p` are such machines
(`core_eq_engineBy`, `engine_eq_engineBy`). -/
def engineBy (f : Performer) : Host.Core where
  State := State
  Fault := Fault
  Refusal := Refusal
  step := stepBy f
  reset := State.reset

theorem core_eq_engineBy : core = engineBy exec := rfl

theorem engine_eq_engineBy (p : Config.B3Params) : engine p = engineBy (execWith p) := rfl

theorem engineBy_run_succ_next {f : Performer} {s t : State} (k : Nat) (h : stepBy f s = .next t) :
    Host.Core.run (engineBy f) (k + 1) s = Host.Core.run (engineBy f) k t := by
  have hstep : (engineBy f).step s = .next t := h
  simp only [Host.Core.run, hstep]

theorem engineBy_run_succ_fault {f : Performer} {s : State} (k : Nat) {r : Fault}
    (h : stepBy f s = .fault r) : Host.Core.run (engineBy f) (k + 1) s = .fault r := by
  have hstep : (engineBy f).step s = .fault r := h
  simp only [Host.Core.run, hstep]

/-- A well-formed event leaves one state, up to the events still to come, whichever these are. -/
theorem serveBy_setPending_both {f : Performer} (hf : performsOperations f) (e : Event) (s : State)
    (p q : List Event) (he : e.wellFormed = true) :
    ∃ t : State, serveBy f e (s.setPending p) = .next (t.setPending p) ∧
      serveBy f e (s.setPending q) = .next (t.setPending q) := by
  obtain ⟨t, ht, hp⟩ := serveBy_setPending hf e s p he
  obtain ⟨t', ht', hq⟩ := serveBy_setPending hf e s q he
  obtain rfl := Host.Outcome.next.inj (ht.symm.trans ht')
  exact ⟨t, hp, hq⟩

/-- The steps of a run are the fold of its events, by induction on them: no event sees the ones still to come,
and an event of no bytes stops both. -/
theorem run_eq_performAllBy {f : Performer} (hf : performsOperations f) (es rest : List Event) (s : State) :
    Host.Core.run (engineBy f) es.length (s.setPending (es ++ rest)) =
      performAllBy f es (s.setPending rest) := by
  induction es generalizing s with
  | nil => rfl
  | cons e es ih =>
    have hstep : stepBy f (s.setPending (e :: es ++ rest)) = serveBy f e (s.setPending (es ++ rest)) :=
      stepBy_event f _ rfl
    rw [List.length_cons]
    by_cases he : e.wellFormed = true
    · obtain ⟨t, hall, hrest⟩ := serveBy_setPending_both hf e s (es ++ rest) rest he
      rw [engineBy_run_succ_next _ (hstep.trans hall), ih t, performAllBy_cons_next es hrest]
    · rw [Bool.not_eq_true] at he
      exact (engineBy_run_succ_fault _ (hstep.trans (serveBy_ill_formed f e _ he))).trans
        (performAllBy_cons_fault es (serveBy_ill_formed f e _ he)).symm

/-- Settles O45: `core` and `engine p` are the machines of two performers. -/
theorem runIsTheFoldOfItsEvents : Obligations.RunIsTheFoldOfItsEvents :=
  fun es rest s => ⟨run_eq_performAllBy exec_performsOperations es rest s,
    fun p => run_eq_performAllBy (execWith_performsOperations p) es rest s⟩

end Sys2Proof.Machine

namespace Sys2Proof

/-! Decode against encode (`30_encoding.md` R60, R64), and the bytes of a table word. -/

theorem decode_encode (i : Instr) : decode (encode i) = .ok i :=
  Machine.decodeByte_encodeByte i

theorem decode_eq_ok_iff (bs : List Byte) (i : Instr) : decode bs = .ok i ↔ bs = encode i := by
  constructor
  · intro h
    match bs, h with
    | [c], h => rw [encode, encodeByte_of_decodeByte h]
    | [], h => cases h
    | _ :: _ :: _, h => cases h
  · rintro rfl
    exact decode_encode i

/-- Settles O2: `encodeByte` and the decoder undo each other on one byte, and no other length decodes. -/
theorem decodeExactlyInvertsEncode : Obligations.DecodeExactlyInvertsEncode := decode_eq_ok_iff

/-- Settles O1, by evaluating the decoder on each written word. -/
theorem decodesWrittenWords : Obligations.DecodesWrittenWords := by
  unfold Obligations.DecodesWrittenWords
  decide

theorem cmdLane_toFin (c : Byte) : (cmdLane c).toFin = Fin.ofNat 4 (c.toNat / 4) :=
  Fin.ext (cmdLane_toNat c)

theorem cmdKey_toFin (c : Byte) : (cmdKey c).toFin = Fin.ofNat 4 (c.toNat / 16) :=
  Fin.ext (cmdKey_toNat c)

theorem tableBytes_toNat (c : Byte) : tableBytes 8 c.toNat = [c] := by
  have hmod : c.toNat % 256 = c.toNat := Nat.mod_eq_of_lt c.isLt
  simp [tableBytes, hmod]

theorem decodeTableWord_encodeByte (i : Instr) : decodeTableWord 8 (encodeByte i).toNat = some i := by
  rw [decodeTableWord, tableBytes_toNat, ← encode, decode_encode]

end Sys2Proof

namespace Sys2Proof.Machine

/-! `Execute` of any byte, and the word presented as a command (`30_encoding.md` R61, R65, R67). -/

/-- Settles O3: the branches of the rule are those of the decoder, with the fields read as numbers. -/
theorem executeFollowsDecodeRule : Obligations.ExecuteFollowsDecodeRule := by
  intro c s
  rw [execute, executeBy, decodeByte_eq, cmdLane_toFin, cmdKey_toFin]
  split_ifs <;> rfl

theorem execute_of_not_decodes {c : Byte} (h : ¬ ∃ i, decodeByte c = .ok i) (s : State) :
    execute c s = .next { s with ERR := 1 } := by
  rcases execute_cases c s with ⟨i, hdec, _⟩ | ⟨_, _, hx⟩
  · exact absurd ⟨i, hdec⟩ h
  · rw [hx, contractViolation_eq]

/-- Settles O4: the two classes are the bytes that do not decode, and a byte that decodes is an encoding; the
sizes are counted by the kernel, since 256 bytes exceed what `decide` unfolds by itself. -/
theorem illegalCommandOnlySetsErr : Obligations.IllegalCommandOnlySetsErr := by
  refine ⟨fun c s hc => execute_of_not_decodes ((decodeByte_rejects_iff c).mpr hc) s, fun c hc => ?_,
    by decide +kernel, by decide +kernel⟩
  obtain ⟨i, hdec⟩ := not_not.mp (mt (decodeByte_rejects_iff c).mp hc)
  exact ⟨i, encodeByte_of_decodeByte hdec⟩

theorem withFetchWord_encodeByte (s : State) (i : Instr) :
    s.withFetchWord 8 (encodeByte i).toNat = s.setPending (asmOp i :: s.pending) := by
  rw [State.withFetchWord, tableBytes_toNat]
  rfl

/-- Settles O6: the word's one byte is the operation's command line, presented first. -/
theorem presentedWordRunsNext : Obligations.PresentedWordRunsNext := by
  intro s i
  refine ⟨decodeTableWord_encodeByte i, ?_⟩
  calc step (s.withFetchWord 8 (encodeByte i).toNat)
      = step (s.setPending (asmOp i :: s.pending)) := by rw [withFetchWord_encodeByte]
    _ = exec i (s.setPending s.pending) := stepBy_asmOp exec s i s.pending
    _ = exec i s := by rw [setPending_self]

/-! Runs of the calling sequences (`30_encoding.md` R68, R69; `41_sha256.md` R108). -/

/-- `LDB P ; SHAC` for each block chains the block compression in each half of `S`. -/
theorem run_shacBlocks (blocks : List Operand) (rest : List Event) (s : State) : ∃ t : State,
    Host.Core.run core (2 * blocks.length)
      (s.setPending ((blocks.flatMap fun P => [asmLdb P, asmOp .shac]) ++ rest)) =
        .next (t.setPending rest) ∧
    (∀ h : Fin 2,
      shaHalf t.S h = blocks.foldl (fun H P => sha256Block H (beWords P)) (shaHalf s.S h)) ∧
    t.ERR = s.ERR ∧ t.returned = s.returned := by
  induction blocks generalizing s with
  | nil => exact ⟨s, rfl, fun _ => rfl, rfl, rfl⟩
  | cons P blocks ih =>
    obtain ⟨t, hrun, hhalf, herr, hret⟩ :=
      ih (({ s with B := P } : State).writeS (sha256Compress s.S P))
    refine ⟨t, ?_, fun h => ?_, herr, hret⟩
    · exact (run_succ_next _ (step_asmLdb s P _)).trans
        ((run_succ_next _ (step_asmOp _ .shac _)).trans hrun)
    · rw [hhalf, writeS_S, shaHalf_sha256Compress, List.foldl_cons]

/-- Settles O22: one step loads the operand, and the blocks are chained from it. -/
theorem chainedShacChainsTheBlocks : Obligations.ChainedShacChainsTheBlocks := by
  intro s v blocks rest
  obtain ⟨t, hrun, hhalf, herr, hret⟩ := run_shacBlocks blocks rest (s.writeS v)
  refine ⟨t.setPending rest, ?_, hhalf, herr, rfl, hret⟩
  rw [Nat.add_comm, run_succ_next _ (step_asmLds s v _), hrun]

/-- An operation and the read of its result, with which every form of a call ends. -/
theorem run_asmOp_asmRds (op : Instr) (s : State) (rest : List Event) :
    Host.Core.run core 2 (s.setPending (asmOp op :: asmRds :: rest)) =
      .next (((s.writeS (commandResult op s.S s.B)).giveBack
        (some (commandResult op s.S s.B).toList)).setPending rest) :=
  (run_succ_next 1 (step_asmOp s op _)).trans (run_succ_next 0 (step_asmRds _ rest))

/-- Settles O47: each form loads the operands it lacks and ends with the operation and `RDS`. -/
theorem callReturnsTheResult : Obligations.CallReturnsTheResult := by
  intro op s st blk rest _
  have hcall := run_asmOp_asmRds op { s with S := st, B := blk } rest
  refine ⟨_, exec_eq_writeS op _, ?_, ?_, ?_, ?_⟩
  · exact (run_succ_next 3 (step_asmLds s st _)).trans ((run_succ_next 2 (step_asmLdb _ blk _)).trans hcall)
  · exact (run_succ_next 3 (step_asmLdb s blk _)).trans ((run_succ_next 2 (step_asmLds _ st _)).trans hcall)
  · exact (run_succ_next 2 (step_asmLds { s with B := blk } st _)).trans hcall
  · exact (run_succ_next 2 (step_asmLdb { s with S := st } blk _)).trans hcall

end Sys2Proof.Machine

namespace Sys2Proof.Machine

/-! The S-box as the affine map of the field inverse (`40_aes.md` R81). -/

/-- The affine map of R81, from the field inverse of a byte to the byte's table entry. -/
def sboxAffine (b : Byte) : Byte :=
  b ^^^ b.rotateLeft 1 ^^^ b.rotateLeft 2 ^^^ b.rotateLeft 3 ^^^ b.rotateLeft 4 ^^^ 0x63

/-- The inverse of that map. -/
def sboxAffineInv (y : Byte) : Byte := y.rotateLeft 1 ^^^ y.rotateLeft 3 ^^^ y.rotateLeft 6 ^^^ 0x05

/-- The `b` of R81, read back from the byte's table entry: 0 of 0 and the field inverse of any other byte
(`sboxPreimage_zero`, `gfMul_sboxPreimage`). -/
def sboxPreimage (a : Byte) : Byte := sboxAffineInv (sbox a)

theorem sboxAffineInv_leftInverse : Function.LeftInverse sboxAffineInv sboxAffine := by
  unfold Function.LeftInverse
  decide +kernel

theorem sboxAffineInv_rightInverse : Function.RightInverse sboxAffineInv sboxAffine := by
  unfold Function.RightInverse Function.LeftInverse
  decide +kernel

theorem sboxAffine_bijective : Function.Bijective sboxAffine :=
  ⟨sboxAffineInv_leftInverse.injective, sboxAffineInv_rightInverse.surjective⟩

theorem sbox_eq_sboxAffine (a : Byte) : sbox a = sboxAffine (sboxPreimage a) :=
  (sboxAffineInv_rightInverse (sbox a)).symm

theorem sboxPreimage_zero : sboxPreimage 0 = 0 := by decide

theorem gfMul_sboxPreimage : ∀ {a : Byte}, a ≠ 0 → gfMul a (sboxPreimage a) = 1 := by
  decide +kernel

/-- The field inverse of the field inverse is the byte itself. -/
theorem sboxPreimage_involutive : Function.Involutive sboxPreimage := by
  unfold Function.Involutive
  decide +kernel

theorem sbox_bijective : Function.Bijective sbox := by
  have hsbox : sbox = sboxAffine ∘ sboxPreimage := funext sbox_eq_sboxAffine
  rw [hsbox]
  exact sboxAffine_bijective.comp sboxPreimage_involutive.bijective

/-- Settles O10, with the `b` that the table entry gives back: 255 products in the field are computed by the
kernel, and the affine map has an inverse. -/
theorem sboxIsInverseThenAffine : Obligations.SboxIsInverseThenAffine :=
  ⟨sbox_bijective, fun a => ⟨sboxPreimage a, by rintro rfl; exact sboxPreimage_zero, gfMul_sboxPreimage,
    sbox_eq_sboxAffine a⟩⟩

/-! The bytes of an AES round (`40_aes.md` R80 to R86). -/

/-- Column `c` of a lane, by rows (R80). -/
def laneColumn (x : Lane) (c r : Fin 4) : Byte := x[4 * c.val + r.val]

theorem laneColumn_eq (x : Lane) (c r : Fin 4) : laneColumn x c r = x[r.val + 4 * c.val] := by
  simp only [laneColumn, Nat.add_comm]

/-- `MixColumns` on one column (R84). -/
def mixColumn (a : Fin 4 → Byte) (r : Fin 4) : Byte := mixRow r.val (a 0) (a 1) (a 2) (a 3)

theorem row_column_of_index (c r : Fin 4) :
    (4 * c.val + r.val) % 4 = r.val ∧ (4 * c.val + r.val) / 4 = c.val := by omega

theorem laneColumn_subBytes (x : Lane) (c r : Fin 4) :
    laneColumn (subBytes x) c r = sbox (laneColumn x c r) := by
  simp only [laneColumn, subBytes, Vector.getElem_map]

theorem laneColumn_shiftRows (x : Lane) (c r : Fin 4) :
    laneColumn (shiftRows x) c r = laneColumn x (c + r) r := by
  obtain ⟨hrow, hcol⟩ := row_column_of_index c r
  rw [laneColumn_eq x]
  simp only [laneColumn, shiftRows, Vector.getElem_ofFn, hrow, hcol, Fin.val_add]

theorem laneColumn_mixColumns (x : Lane) (c : Fin 4) :
    laneColumn (mixColumns x) c = mixColumn (laneColumn x c) := by
  funext r
  obtain ⟨hrow, hcol⟩ := row_column_of_index c r
  simp only [laneColumn, mixColumns, Vector.getElem_ofFn, mixColumn, hrow, hcol]
  rfl

theorem laneColumn_aesRound (x k : Lane) (c r : Fin 4) :
    laneColumn (aesRound x k) c r =
      mixColumn (fun r => sbox (laneColumn x (c + r) r)) r ^^^ laneColumn k c r := by
  have hcol : laneColumn (shiftRows (subBytes x)) c = fun r => sbox (laneColumn x (c + r) r) :=
    funext fun r => by rw [laneColumn_shiftRows, laneColumn_subBytes]
  rw [← hcol, ← laneColumn_mixColumns]
  exact xorLane_getElem _ k _ (by omega)

/-- Settles O11, row by row of the column. -/
theorem aesRoundByBytes : Obligations.AesRoundByBytes := by
  intro x k c
  have hbyte := laneColumn_aesRound x k c
  simp only [laneColumn_eq x] at hbyte
  exact ⟨hbyte 0, hbyte 1, hbyte 2, hbyte 3⟩

/-! The AES round is a bijection (`40_aes.md` R86): each of its layers has an inverse. -/

theorem lane_ext {x y : Lane} (h : ∀ c r, laneColumn x c r = laneColumn y c r) : x = y := by
  apply Vector.ext
  intro i hi
  have hbyte := h ⟨i / 4, by omega⟩ ⟨i % 4, by omega⟩
  simpa only [laneColumn, Nat.div_add_mod] using hbyte

theorem bijective_of_involutive_comp_self {α : Type} {f : α → α} (h : Function.Involutive (f ∘ f)) :
    Function.Bijective f :=
  ⟨h.injective.of_comp, h.surjective.of_comp⟩

theorem subBytes_bijective : Function.Bijective subBytes := by
  obtain ⟨g, hleft, hright⟩ := Function.bijective_iff_has_inverse.mp sbox_bijective
  refine Function.bijective_iff_has_inverse.mpr ⟨Vector.map g, fun x => ?_, fun x => ?_⟩
  · rw [subBytes, Vector.map_map, hleft.comp_eq_id, Vector.map_id]
  · rw [subBytes, Vector.map_map, hright.comp_eq_id, Vector.map_id]

/-- Row `r` is rotated by `r` places, so four times by none. -/
theorem shiftRows_bijective : Function.Bijective shiftRows := by
  have hfour (c r : Fin 4) : c + r + r + r + r = c := by revert c r; decide
  refine bijective_of_involutive_comp_self fun x => lane_ext fun c r => ?_
  simp only [Function.comp_apply, laneColumn_shiftRows, hfour]

theorem byte_xor_left_comm (a b c : Byte) : a ^^^ (b ^^^ c) = b ^^^ (a ^^^ c) := by ac_rfl

/-- The sum of a column. -/
def columnSum (a : Fin 4 → Byte) : Byte := a 0 ^^^ a 1 ^^^ a 2 ^^^ a 3

/-- R84's matrix, said of every row at once by the sum of the column. -/
theorem mixColumn_eq (a : Fin 4 → Byte) (r : Fin 4) :
    mixColumn a r = a r ^^^ columnSum a ^^^ xtime (a r ^^^ a (r + 1)) := by
  rw [xtime_xor, columnSum]
  match r with
  | 0 | 1 | 2 | 3 =>
    simp [mixColumn, mixRow, BitVec.xor_assoc, BitVec.xor_comm, byte_xor_left_comm]

theorem columnSum_mixColumn (a : Fin 4 → Byte) : columnSum (mixColumn a) = columnSum a := by
  simp [columnSum, mixColumn, mixRow, BitVec.xor_assoc, BitVec.xor_comm, byte_xor_left_comm]

theorem mixColumn_xor_mixColumn_succ (a : Fin 4 → Byte) (r : Fin 4) :
    mixColumn a r ^^^ mixColumn a (r + 1) = a r ^^^ a (r + 1) ^^^ xtime (a r ^^^ a (r + 2)) := by
  have h2 : r + 1 + 1 = r + 2 := by omega
  simp [mixColumn_eq, h2, xtime_xor, BitVec.xor_assoc, byte_xor_left_comm]

/-- The square of R84's matrix: `5` on the diagonal, `4` two rows on, `0` elsewhere. -/
theorem mixColumn_mixColumn (a : Fin 4 → Byte) (r : Fin 4) :
    mixColumn (mixColumn a) r = a r ^^^ xtime (xtime (a r ^^^ a (r + 2))) := by
  rw [mixColumn_eq (mixColumn a), columnSum_mixColumn, mixColumn_xor_mixColumn_succ, mixColumn_eq]
  simp [xtime_xor, BitVec.xor_assoc, BitVec.xor_comm, byte_xor_left_comm]

theorem mixColumn_twice_involutive : Function.Involutive (mixColumn ∘ mixColumn) := by
  intro a
  funext r
  have htwo : r + 2 + 2 = r := by omega
  simp [mixColumn_mixColumn, htwo, xtime_xor, BitVec.xor_assoc, BitVec.xor_comm]

theorem mixColumns_bijective : Function.Bijective mixColumns := by
  refine bijective_of_involutive_comp_self fun x => lane_ext fun c => congrFun ?_
  simp only [Function.comp_apply, laneColumn_mixColumns]
  exact mixColumn_twice_involutive _

theorem addRoundKey_bijective (k : Lane) : Function.Bijective fun x => addRoundKey x k := by
  refine Function.Involutive.bijective fun x => Vector.ext fun i hi => ?_
  simp only [addRoundKey, xorLane_getElem _ _ i hi, BitVec.xor_assoc, BitVec.xor_self, BitVec.xor_zero]

/-- Settles O12, layer by layer. -/
theorem aesRoundIsBijective : Obligations.AesRoundIsBijective := fun k =>
  (addRoundKey_bijective k).comp
    (mixColumns_bijective.comp (shiftRows_bijective.comp subBytes_bijective))

/-! `AESR` and `AESC` (`40_aes.md` R87, R88). -/

theorem operand_getElem_eq_lane (X : Operand) {i : Nat} (hi : i < 64) :
    X[i] = (lane X ⟨i / 16, by omega⟩)[i % 16] := by
  rw [lane_getElem]
  simp only [Nat.div_add_mod]

theorem encodeByte_aesr_toNat (l k : Fin 4) :
    (encodeByte (.aesr l k)).toNat = 0x03 + 4 * l.val + 16 * k.val := by
  rw [encodeByte, BitVec.toNat_ofNat]
  omega

/-- Settles O13, by the law of a command and of a lane replaced; the zero corner is computed. -/
theorem aesrWritesOneRound : Obligations.AesrWritesOneRound := by
  refine ⟨fun l k s => ⟨_, exec_eq_writeS (.aesr l k) s, ?_, fun i hi hne => ?_, sameButS_writeS s _,
    encodeByte_aesr_toNat l k⟩, by decide +kernel⟩
  · rw [writeS_S, commandResult, lane_setLane_same]
  · exact commandResult_frame (i := .aesr l k) s.S s.B hi hne

theorem aesCompress_getElem (S B : Operand) (j : Fin 4) {i : Nat} (hi : i < 16) :
    (aesCompress S B)[16 * j.val + i] = (aescRounds (lane S j) B)[i] ^^^ S[16 * j.val + i] := by
  rw [← lane_getElem _ j i hi, lane_aesCompress, xorLane_getElem _ _ i hi, lane_getElem S j i hi]

/-- Settles O14: the four rounds are the fold of the model, unfolded over its list of keys. -/
theorem aescFourRoundsThenXor : Obligations.AescFourRoundsThenXor :=
  fun s => ⟨_, exec_eq_writeS .aesc s, fun j _ hi => aesCompress_getElem s.S s.B j hi,
    sameButS_writeS s _, rfl⟩

/-- Settles O15: a lane of the result is a function of that lane and `B`. -/
theorem aescLanesNeverMix : Obligations.AescLanesNeverMix := by
  intro s s' t t' j j' ht ht' hB hlane
  rw [exec_eq_writeS, Host.Outcome.next.injEq] at ht ht'
  subst ht ht'
  simp only [writeS_S, commandResult, lane_aesCompress, hB, hlane]

/-! `AESC` from sixteen `AESR` (`40_aes.md` R89). -/

/-- The four `AESR` commands that give lane `j` its rounds, keys in order. -/
def laneCommands (j : Fin 4) : List Event := [0, 1, 2, 3].map fun k => asmOp (.aesr j k)

/-- `S` with the four rounds of R88 done in place in lane `j`. -/
def roundLane (B S : Operand) (j : Fin 4) : Operand := setLane S j (aescRounds (lane S j) B)

theorem setLane_setLane (X : Operand) (j : Fin 4) (v w : Lane) :
    setLane (setLane X j v) j w = setLane X j w := by
  apply Vector.ext
  intro i hi
  simp only [setLane_getElem _ _ _ i hi]
  split <;> rfl

theorem writeS_writeS (s : State) (v w : Operand) : (s.writeS v).writeS w = s.writeS w := rfl

theorem performAll_asmOp (i : Instr) (es : List Event) (s : State) :
    performAll (asmOp i :: es) s = performAll es (s.writeS (commandResult i s.S s.B)) :=
  performAll_cons_next es ((serveBy_command exec (decode_encode i) s).trans (exec_eq_writeS i s))

theorem performAll_laneCommands (j : Fin 4) (es : List Event) (s : State) :
    performAll (laneCommands j ++ es) s = performAll es (s.writeS (roundLane s.B s.S j)) := by
  simp only [laneCommands, List.map_cons, List.map_nil, List.cons_append, List.nil_append,
    performAll_asmOp, commandResult, writeS_S, writeS_B, lane_setLane_same, setLane_setLane,
    writeS_writeS, roundLane, aescRounds, List.foldl_cons, List.foldl_nil]

theorem performAll_laneCommands_flatMap (js : List (Fin 4)) (s : State) :
    performAll (js.flatMap laneCommands) s = .next (s.writeS (js.foldl (roundLane s.B) s.S)) := by
  induction js generalizing s with
  | nil => rfl
  | cons j js ih =>
    rw [List.flatMap_cons, performAll_laneCommands, ih, writeS_writeS, writeS_S, writeS_B, List.foldl_cons]

theorem lane_foldl_roundLane_of_notMem (B : Operand) {js : List (Fin 4)} {j : Fin 4} (hj : j ∉ js)
    (S : Operand) : lane (js.foldl (roundLane B) S) j = lane S j := by
  induction js generalizing S with
  | nil => rfl
  | cons i js ih =>
    obtain ⟨hne, hjs⟩ := not_or.mp (mt List.mem_cons.mpr hj)
    rw [List.foldl_cons, ih hjs, roundLane, lane_setLane_ne S i j _ hne]

/-- Lanes done in any order, each once, get their own rounds: no lane sees another. -/
theorem lane_foldl_roundLane (B : Operand) {js : List (Fin 4)} (hnodup : js.Nodup) {j : Fin 4} (hj : j ∈ js)
    (S : Operand) : lane (js.foldl (roundLane B) S) j = aescRounds (lane S j) B := by
  induction js generalizing S with
  | nil => cases hj
  | cons i js ih =>
    obtain ⟨hi, hjs⟩ := List.nodup_cons.mp hnodup
    rw [List.foldl_cons]
    rcases List.mem_cons.mp hj with rfl | hmem
    · rw [lane_foldl_roundLane_of_notMem B hi, roundLane, lane_setLane_same]
    · have hne : j ≠ i := fun h => hi (h ▸ hmem)
      rw [ih hjs hmem, roundLane, lane_setLane_ne S i j _ hne]

theorem run_laneCommands {js : List (Fin 4)} (hjs : js.Perm [0, 1, 2, 3]) (rest : List Event) (s : State) :
    Host.Core.run core 16 (s.setPending (js.flatMap laneCommands ++ rest)) =
      .next ((s.setPending rest).writeS (js.foldl (roundLane s.B) s.S)) := by
  have hlength : (js.flatMap laneCommands).length = 16 := (hjs.flatMap_right laneCommands).length_eq
  rw [← hlength]
  exact (run_eq_performAllBy exec_performsOperations _ rest s).trans
    (performAll_laneCommands_flatMap js (s.setPending rest))

/-- Two rounds with the zero key and the key of ones, in the two orders, differ on the zero lane. -/
theorem aesRound_order_of_keys : ∃ x k0 k1 : Lane,
    aesRound (aesRound x k0) k1 ≠ aesRound (aesRound x k1) k0 :=
  ⟨Vector.replicate 16 0x00, Vector.replicate 16 0x00, Vector.replicate 16 0x01, by decide +kernel⟩

/-- Settles O16: the run is the fold of its commands, each lane has its own rounds at the end, and `AESC` adds
the old lane to the same rounds. -/
theorem aescFromSixteenAesr : Obligations.AescFromSixteenAesr := by
  refine ⟨fun s rest js hjs => ⟨_, _, run_laneCommands hjs rest s, exec_eq_writeS .aesc _,
    fun i hi => ?_, rfl, rfl, rfl, rfl, rfl⟩, aesRound_order_of_keys⟩
  have hnodup : js.Nodup := hjs.nodup_iff.mpr (by decide)
  have hmem (j : Fin 4) : j ∈ js := hjs.mem_iff.mpr (by revert j; decide)
  show (aesCompress s.S s.B)[i] = (js.foldl (roundLane s.B) s.S)[i] ^^^ s.S[i]
  rw [operand_getElem_eq_lane _ hi, lane_aesCompress, xorLane_getElem, operand_getElem_eq_lane s.S hi,
    operand_getElem_eq_lane (js.foldl _ _) hi, lane_foldl_roundLane s.B hnodup (hmem _)]

end Sys2Proof.Machine

namespace Sys2Proof.Machine

/-! The message schedule and the rounds of `Sha256Block`, by their index (`41_sha256.md` R102, R103). -/

/-- The window `W[t .. t+15]` of the message schedule. -/
def shaWindow (M : Vector Word 16) (t : Nat) : Vector Word 16 := shaSlide^[t] M

/-- The word `W[t]` of the message schedule, for every `t` (R102). -/
def shaWord (M : Vector Word 16) (t : Nat) : Word := (shaWindow M t)[0]

theorem shaWindow_succ (M : Vector Word 16) (t : Nat) : shaWindow M (t + 1) = shaSlide (shaWindow M t) :=
  Function.iterate_succ_apply' shaSlide t M

theorem shaWindow_getElem (M : Vector Word 16) (t i : Nat) (hi : i < 16) :
    (shaWindow M t)[i] = shaWord M (t + i) := by
  induction i generalizing t with
  | zero => rfl
  | succ i ih =>
    have hi' : i < 15 := by omega
    calc (shaWindow M t)[i + 1]
        = (shaSlide (shaWindow M t))[i] := (shaSlide_getElem _ i hi').symm
      _ = (shaWindow M (t + 1))[i] := by rw [shaWindow_succ]
      _ = shaWord M (t + (i + 1)) := by rw [ih, Nat.add_assoc, Nat.add_comm 1 i]

theorem shaWord_of_lt (M : Vector Word 16) (t : Nat) (ht : t < 16) : shaWord M t = M[t] := by
  have hword := shaWindow_getElem M 0 t ht
  rw [Nat.zero_add] at hword
  exact hword.symm

/-- R102's recurrence, at `t + 16`: the new last word of a window. -/
theorem shaWord_add_sixteen (M : Vector Word 16) (t : Nat) :
    shaWord M (t + 16) = shaSmallSigma1 (shaWord M (t + 14)) + shaWord M (t + 9) +
      shaSmallSigma0 (shaWord M (t + 1)) + shaWord M t := by
  have hlast := shaSlide_last (shaWindow M t)
  rw [← shaWindow_succ] at hlast
  simp only [shaWindow_getElem] at hlast
  rwa [Nat.add_assoc] at hlast

theorem shaWord_zero (M : Vector Word 16) : shaWord M 0 = M[0] := rfl

/-- A schedule without its first word is the schedule from the next window. -/
theorem shaWord_succ (M : Vector Word 16) (t : Nat) : shaWord M (t + 1) = shaWord (shaSlide M) t := by
  rw [shaWord, shaWindow, Function.iterate_succ_apply, shaWord, shaWindow]

theorem shaScheduleFrom_eq_map (n : Nat) (w : Vector Word 16) :
    shaScheduleFrom n w = (List.range n).map (shaWord w) := by
  induction n generalizing w with
  | zero => rfl
  | succ n ih =>
    simp only [shaScheduleFrom, ih, List.range_succ_eq_map, List.map_cons, List.map_map, Function.comp_def,
      Nat.succ_eq_add_one, shaWord_zero, shaWord_succ]

theorem shaK_eq_map : shaK = (List.range 64).map fun t => shaK.getD t 0 := rfl

/-- The working variables before round `t` (R103). -/
def shaVarsAt (H : Vector Word 8) (M : Vector Word 16) (t : Nat) : ShaVars :=
  (List.range t).foldl (fun v i => shaRound v (shaK.getD i 0) (shaWord M i)) (shaInit H)

theorem shaVarsAt_succ (H : Vector Word 8) (M : Vector Word 16) (t : Nat) :
    shaVarsAt H M (t + 1) = shaRound (shaVarsAt H M t) (shaK.getD t 0) (shaWord M t) := by
  rw [shaVarsAt, List.range_succ, List.foldl_append]
  rfl

theorem shaAllRounds_eq_shaVarsAt (H : Vector Word 8) (M : Vector Word 16) :
    shaAllRounds H M = shaVarsAt H M 64 := by
  rw [shaAllRounds, shaSchedule, shaScheduleFrom_eq_map, Config.shaRounds, shaK_eq_map, List.zip_map',
    List.foldl_map, shaVarsAt]

/-- Settles O17, with the first words of the windows for `W`, and for `V` the fold of the rounds so far. -/
theorem sha256BlockMeetsRecurrences : Obligations.Sha256BlockMeetsRecurrences := by
  refine ⟨rfl, fun H M => ⟨shaWord M, shaVarsAt H M, shaWord_of_lt M, fun t hlo _ => ?_, rfl,
    fun t _ => shaVarsAt_succ H M t, ?_⟩⟩
  · obtain ⟨n, rfl⟩ := Nat.exists_eq_add_of_le' hlo
    exact shaWord_add_sixteen M n
  · simp only [sha256Block, shaAllRounds_eq_shaVarsAt]

/-! `SHAC` (`41_sha256.md` R106, R107). -/

theorem shaHalf_getElem_eq_be32 (X : Operand) (h : Fin 2) (i : Nat) (hi : i < 8) :
    (shaHalf X h)[i] = be32 X[32 * h.val + 4 * i] X[32 * h.val + 4 * i + 1] X[32 * h.val + 4 * i + 2]
      X[32 * h.val + 4 * i + 3] := by
  have hindex : 4 * (8 * h.val + i) = 32 * h.val + 4 * i := by omega
  rw [shaHalf_getElem, beWords_getElem]
  simp only [hindex]

theorem shaHalf_eq_ofFn_be32 (X : Operand) (h : Fin 2) :
    shaHalf X h = Vector.ofFn fun n : Fin 8 =>
      be32 X[32 * h.val + 4 * n.val] X[32 * h.val + 4 * n.val + 1] X[32 * h.val + 4 * n.val + 2]
        X[32 * h.val + 4 * n.val + 3] := by
  apply Vector.ext
  intro i hi
  rw [shaHalf_getElem_eq_be32, Vector.getElem_ofFn]

/-- Settles O20: `shaHalf_sha256Compress`, with the words of the halves written out as bytes. -/
theorem shacCompressesEachHalf : Obligations.ShacCompressesEachHalf := by
  refine fun s => ⟨_, exec_eq_writeS .shac s, fun h i hi => ?_, sameButS_writeS s _, rfl⟩
  rw [← shaHalf_getElem_eq_be32 _ h i hi, ← shaHalf_eq_ofFn_be32, writeS_S, commandResult,
    shaHalf_sha256Compress]
  rfl

/-- Settles O21: a half of the result is a function of that half and `B`. -/
theorem shacHalvesNeverMix : Obligations.ShacHalvesNeverMix := by
  intro s s' t t' h h' ht ht' hB hhalf
  rw [exec_eq_writeS, Host.Outcome.next.injEq] at ht ht'
  subst ht ht'
  simp only [writeS_S, commandResult, shaHalf_sha256Compress, hB, hhalf]

/-! The constants and the six functions (`41_sha256.md` R100, R101). -/

/-- The primes below 312. -/
def firstPrimes : List Nat :=
  [2, 3, 5, 7, 11, 13, 17, 19, 23, 29, 31, 37, 41, 43, 47, 53, 59, 61, 67, 71, 73, 79, 83, 89, 97, 101, 103, 107,
   109, 113, 127, 131, 137, 139, 149, 151, 157, 163, 167, 173, 179, 181, 191, 193, 197, 199, 211, 223, 227, 229,
   233, 239, 241, 251, 257, 263, 269, 271, 277, 281, 283, 293, 307, 311]

/-- The sieve of R100's statement, by trial division in the kernel. -/
theorem filter_trialDivision_eq_firstPrimes :
    ((List.range 312).filter fun q => 2 ≤ q ∧ ∀ d ∈ List.range q, 2 ≤ d → q % d ≠ 0) = firstPrimes := by
  decide +kernel

/-- The word of `shaK` at `t` is the first 32 fractional bits of the cube root of the `t`-th prime. -/
theorem shaK_cubeRoot_firstPrimes : ∀ t : Fin 64, ∃ m : Fin 7,
    (m.val * 2 ^ 32 + (shaK.getD t 0).toNat) ^ 3 ≤ firstPrimes.getD t 0 * 2 ^ 96 ∧
    firstPrimes.getD t 0 * 2 ^ 96 < (m.val * 2 ^ 32 + (shaK.getD t 0).toNat + 1) ^ 3 := by
  decide +kernel

/-- Settles O18: the rows are those of the model's table, and the primes found are the 64 whose cube roots
were compared. -/
theorem shaConstantsAreCubeRootBits : Obligations.ShaConstantsAreCubeRootBits := by
  refine ⟨rfl, ?_⟩
  rw [filter_trialDivision_eq_firstPrimes]
  exact ⟨rfl, shaK_cubeRoot_firstPrimes⟩

/-- Settles O19: the model defines the six functions by R101's formulas. -/
theorem shaFunctionsAsWritten : Obligations.ShaFunctionsAsWritten :=
  fun _ _ _ => ⟨rfl, rfl, rfl, rfl, rfl, rfl⟩

end Sys2Proof.Machine

namespace Sys2Proof.Machine

/-! The quarter-round `G` by its words, and the order of the steps of a round (`42_blake3.md` R122, R123). -/

/-- A word of a vector after one assignment to it, by the indices as `G` has them. -/
theorem word_set {n : Nat} (v : Vector Word n) (a i : Fin n) (x : Word) :
    (v.set a x)[i] = if a = i then x else v[i] := by
  simp [Vector.getElem_set, Fin.ext_iff]

/-- `G` leaves every word but the four at its indices, whatever these are. -/
theorem b3G_of_notMem (v : Vector Word 16) {a b c d i : Fin 16} (mx my : Word) (hi : i ∉ [a, b, c, d]) :
    (b3G v a b c d mx my)[i] = v[i] := by
  simp only [List.mem_cons, List.not_mem_nil, or_false, not_or] at hi
  obtain ⟨ha, hb, hc, hd⟩ := hi
  simp only [b3G, word_set, if_neg (Ne.symm ha), if_neg (Ne.symm hb), if_neg (Ne.symm hc), if_neg (Ne.symm hd)]

/-- Settles O23: an assignment to one of four different indices leaves the words at the other three. -/
theorem b3QuarterRoundByWords : Obligations.B3QuarterRoundByWords := by
  intro v a b c d mx my hnodup a1 d1 c1 b1 a2 d2 c2 b2 r
  obtain ⟨⟨hab, hac, had⟩, ⟨hbc, hbd⟩, hcd⟩ :
      (a ≠ b ∧ a ≠ c ∧ a ≠ d) ∧ (b ≠ c ∧ b ≠ d) ∧ c ≠ d := by simpa using hnodup
  refine ⟨?_, ?_, ?_, ?_, fun i hi => b3G_of_notMem v mx my hi⟩ <;>
    simp only [r, a2, b2, c2, d2, b1, c1, d1, a1, b3G, word_set, if_true, if_false, hab, hac, had, hbc, hbd,
      hcd, hab.symm, hac.symm, had.symm, hbc.symm, hbd.symm, hcd.symm]

/-- The indices of the four words that a step reads and writes. -/
def B3Step.indices (q : B3Step) : List (Fin 16) := [q.a, q.b, q.c, q.d]

theorem b3ApplyStep_of_notMem (m v : Vector Word 16) {q : B3Step} {i : Fin 16} (hi : i ∉ q.indices) :
    (b3ApplyStep m v q)[i] = v[i] :=
  b3G_of_notMem v _ _ hi

/-- What a step writes depends on the four words at its indices alone. -/
theorem b3ApplyStep_congr (m : Vector Word 16) {v w : Vector Word 16} {q : B3Step} (hnodup : q.indices.Nodup)
    (h : ∀ i ∈ q.indices, v[i] = w[i]) {i : Fin 16} (hi : i ∈ q.indices) :
    (b3ApplyStep m v q)[i] = (b3ApplyStep m w q)[i] := by
  obtain ⟨va, vb, vc, vd, -⟩ := b3QuarterRoundByWords v q.a q.b q.c q.d m[q.mx] m[q.my] hnodup
  obtain ⟨wa, wb, wc, wd, -⟩ := b3QuarterRoundByWords w q.a q.b q.c q.d m[q.mx] m[q.my] hnodup
  simp only [B3Step.indices, List.forall_mem_cons] at h
  obtain ⟨ha, hb, hc, hd, -⟩ := h
  rw [ha, hb, hc, hd] at va vb vc vd
  simp only [B3Step.indices, List.mem_cons, List.not_mem_nil, or_false] at hi
  obtain rfl | rfl | rfl | rfl := hi
  · exact va.trans wa.symm
  · exact vb.trans wb.symm
  · exact vc.trans wc.symm
  · exact vd.trans wd.symm

/-- A step does what it would have done before a step on other words. -/
theorem b3ApplyStep_after_disjoint (m v : Vector Word 16) {q q' : B3Step} (hnodup : q.indices.Nodup)
    (hdisj : ∀ i ∈ q.indices, i ∉ q'.indices) {i : Fin 16} (hi : i ∈ q.indices) :
    (b3ApplyStep m (b3ApplyStep m v q') q)[i] = (b3ApplyStep m v q)[i] :=
  b3ApplyStep_congr m hnodup (fun j hj => b3ApplyStep_of_notMem m v (hdisj j hj)) hi

/-- Two steps on disjoint words commute: each word is written by one of them at most. -/
theorem b3ApplyStep_comm (m v : Vector Word 16) {q q' : B3Step} (hq : q.indices.Nodup)
    (hq' : q'.indices.Nodup) (hdisj : ∀ i ∈ q.indices, i ∉ q'.indices) :
    b3ApplyStep m (b3ApplyStep m v q) q' = b3ApplyStep m (b3ApplyStep m v q') q := by
  have hword (i : Fin 16) :
      (b3ApplyStep m (b3ApplyStep m v q) q')[i] = (b3ApplyStep m (b3ApplyStep m v q') q)[i] := by
    by_cases hi : i ∈ q.indices
    · rw [b3ApplyStep_of_notMem m _ (hdisj i hi), b3ApplyStep_after_disjoint m v hq hdisj hi]
    · rw [b3ApplyStep_of_notMem m _ hi]
      by_cases hi' : i ∈ q'.indices
      · exact b3ApplyStep_after_disjoint m v hq' (fun j hj' hj => hdisj j hj hj') hi'
      · simp only [b3ApplyStep_of_notMem m _ hi, b3ApplyStep_of_notMem m _ hi']
  exact Vector.ext fun i hi => hword ⟨i, hi⟩

/-- Steps of four different words each, any two of them on disjoint words, may be taken in any order. -/
theorem foldl_b3ApplyStep_perm (m v : Vector Word 16) {steps p : List B3Step}
    (hnodup : ∀ q ∈ steps, q.indices.Nodup)
    (hdisj : ∀ q ∈ steps, ∀ q' ∈ steps, q ≠ q' → ∀ i ∈ q.indices, i ∉ q'.indices) (hp : p.Perm steps) :
    p.foldl (b3ApplyStep m) v = steps.foldl (b3ApplyStep m) v := by
  refine (hp.symm.foldl_eq' (fun q hq q' hq' w => ?_) v).symm
  by_cases heq : q = q'
  · rw [heq]
  · exact b3ApplyStep_comm m w (hnodup q hq) (hnodup q' hq') (hdisj q hq q' hq' heq)

/-- Settles O24: the fold over the two lists of steps is the sequence, and the steps of a list are disjoint. -/
theorem b3RoundStepsCommute : Obligations.B3RoundStepsCommute := fun m v =>
  ⟨rfl, fun _ => foldl_b3ApplyStep_perm m v (by decide) (by decide),
    fun _ => foldl_b3ApplyStep_perm m v (by decide) (by decide)⟩

/-! The rounds and the messages of `B3Compress` by the number of the round (`42_blake3.md` R124). -/

/-- The message of round `r`: `Permute` applied `r` times. -/
def b3MessageAt (m : Vector Word 16) (r : Nat) : Vector Word 16 := b3Permute^[r] m

theorem b3MessageAt_zero (m : Vector Word 16) : b3MessageAt m 0 = m := rfl

/-- The messages after the first are those from the permuted message on. -/
theorem b3MessageAt_permute (m : Vector Word 16) (r : Nat) :
    b3MessageAt (b3Permute m) r = b3MessageAt m (r + 1) := rfl

theorem b3MessageAt_succ (m : Vector Word 16) (r : Nat) :
    b3MessageAt m (r + 1) = b3Permute (b3MessageAt m r) :=
  Function.iterate_succ_apply' b3Permute r m

theorem b3MessageAt_succ_getElem (m : Vector Word 16) (r : Nat) (i : Fin 16) :
    (b3MessageAt m (r + 1))[i] = (b3MessageAt m r)[b3Perm[i]] := by
  rw [b3MessageAt_succ]
  exact b3Permute_getElem _ i.val i.isLt

theorem b3MessageIndex_zero : ∀ i : Fin 16, b3MessageIndex[0][i] = i := by decide

/-- A row of R124's table is the row before it, read through `PERM`. -/
theorem b3MessageIndex_succ : ∀ (r : Fin 6) (i : Fin 16),
    b3MessageIndex[r.val + 1][i] = b3MessageIndex[r.val][b3Perm[i]] := by decide

/-- The table of R124 says which word of `m` stands at each place in each round. -/
theorem b3MessageAt_getElem (m : Vector Word 16) (r : Nat) (hr : r < 7) (i : Fin 16) :
    (b3MessageAt m r)[i] = m[b3MessageIndex[r][i]] := by
  induction r generalizing i with
  | zero => simp only [b3MessageIndex_zero, b3MessageAt_zero]
  | succ r ih =>
    have hindex := b3MessageIndex_succ ⟨r, by omega⟩ i
    simp only [b3MessageAt_succ_getElem, ih (by omega), hindex]

/-- The words before round `r`, from the words `v` and the message `m` before round 0. -/
def b3WordsAt (v m : Vector Word 16) : Nat → Vector Word 16
  | 0 => v
  | r + 1 => b3Round (b3WordsAt v m r) (b3MessageAt m r)

/-- Counting the rounds from the second one on. -/
theorem b3WordsAt_succ (v m : Vector Word 16) (r : Nat) :
    b3WordsAt v m (r + 1) = b3WordsAt (b3Round v m) (b3Permute m) r := by
  induction r with
  | zero => simp only [b3WordsAt, b3MessageAt_zero]
  | succ r ih => rw [b3WordsAt, ih, b3WordsAt, b3MessageAt_permute]

theorem b3RoundsFrom_eq_b3WordsAt (n : Nat) (v m : Vector Word 16) :
    b3RoundsFrom n v m = b3WordsAt v m n := by
  induction n generalizing v m with
  | zero => rfl
  | succ n ih => rw [b3RoundsFrom, ih, b3WordsAt_succ]

theorem b3Compress_eq_b3Output (cv : Vector Word 8) (m : Vector Word 16) (counter : BitVec 64)
    (blockLen flags : Word) :
    b3Compress cv m counter blockLen flags =
      b3Output (b3WordsAt (b3Init cv counter blockLen flags) m 7) cv := by
  rw [b3Compress, b3RoundsFrom_eq_b3WordsAt, Config.b3Rounds]

theorem b3Init_low (cv : Vector Word 8) (counter : BitVec 64) (blockLen flags : Word) (i : Nat) (h : i < 8) :
    (b3Init cv counter blockLen flags)[i] = cv[i] := by
  interval_cases i <;> rfl

theorem b3Init_counter (cv : Vector Word 8) (counter : BitVec 64) (blockLen flags : Word) :
    (b3Init cv counter blockLen flags)[12].toNat = counter.toNat % 2 ^ 32 ∧
    (b3Init cv counter blockLen flags)[13].toNat = counter.toNat / 2 ^ 32 := by
  have hlt := counter.isLt
  have hlow : (b3Init cv counter blockLen flags)[12] = counter.extractLsb' 0 32 := rfl
  have hhigh : (b3Init cv counter blockLen flags)[13] = counter.extractLsb' 32 32 := rfl
  rw [hlow, hhigh, BitVec.extractLsb'_toNat, BitVec.extractLsb'_toNat, Nat.shiftRight_eq_div_pow,
    Nat.shiftRight_eq_div_pow]
  omega

/-- Settles O25, with the words and the messages of each round by its number. -/
theorem b3CompressMeetsLoop : Obligations.B3CompressMeetsLoop := by
  intro cv m counter blockLen flags
  obtain ⟨hlow, hhigh⟩ := b3Init_counter cv counter blockLen flags
  refine ⟨b3WordsAt (b3Init cv counter blockLen flags) m, b3MessageAt m, b3Init_low cv counter blockLen flags,
    rfl, rfl, rfl, rfl, hlow, hhigh, rfl, rfl, rfl, fun r i _ => b3MessageAt_succ_getElem m r i,
    fun r i => b3MessageAt_getElem m r.val r.isLt i, fun _ _ => rfl, fun i hi => ?_⟩
  rw [b3Compress_eq_b3Output]
  exact ⟨b3Output_low _ cv i hi, b3Output_high _ cv i hi⟩

/-! `B3C` (`42_blake3.md` R126, R127). -/

/-- Settles O26: every word of the result by `blake3Compress_le32`, and the frame of a write of `S`. -/
theorem b3cForEveryParameters : Obligations.B3cForEveryParameters :=
  fun p s => ⟨_, rfl, blake3Compress_le32 p s.S s.B, sameButS_writeS s _, rfl⟩

/-- Settles O28: the default chaining value is a function of `S[0..31]`, and `B3C` reads no more of `S`. -/
theorem b3cIgnoresUpperHalfByDefault : Obligations.B3cIgnoresUpperHalfByDefault := by
  intro s s' t t' ht ht' hB hS
  rw [exec_eq_writeS, Host.Outcome.next.injEq] at ht ht'
  subst ht ht'
  have hcv : b3Defaults.cvDerive s.S = b3Defaults.cvDerive s'.S := firstHalfWords_congr hS
  simp only [writeS_S, commandResult, hB, blake3Compress_congr hcv]

end Sys2Proof.Machine

namespace Sys2Proof.Machine

/-! The causes of a contract violation, and what it does (`60_exceptions.md` R150, R151). -/

/-- Settles O32, clause by clause from the laws of the causes and of `violates`. -/
theorem causesAreTheThirdArms : Obligations.CausesAreTheThirdArms :=
  ⟨fun _ _ hn => hread_accessCause_iff hn, fun _ _ hd => hwrite_accessCause_iff hd,
    fun _ _ => hwrite_commandCause_iff, fun _ _ hn => hread_violates_iff hn,
    fun _ _ hd => hwrite_violates_iff hd, not_violates_reset⟩

/-- Settles O33: a violating event raises, and what it raises sets `ERR`. -/
theorem violationOnlySetsErr : Obligations.ViolationOnlySetsErr :=
  ⟨fun _ _ s hn hv => serve_hread_of_violates hn hv s, fun _ _ s hd hv => serve_hwrite_of_violates hd hv s⟩

/-! `ERR` over a run without reset (`60_exceptions.md` R152, R156). -/

theorem serve_err_iff {e : Event} {s t : State} (hreset : e ≠ .reset) (h : serve e s = .next t) :
    t.ERR = 1 ↔ s.ERR = 1 ∨ e.violates := by
  obtain ⟨-, hset, hkeep⟩ := (served_of_serve h).err
  by_cases hv : e.violates
  · exact iff_of_true (hset hreset hv) (.inr hv)
  · rw [hkeep hreset hv, or_iff_left hv]

theorem performAll_cons_eq_next {e : Event} {es : List Event} {s t : State}
    (h : performAll (e :: es) s = .next t) :
    ∃ u : State, serve e s = .next u ∧ performAll es u = .next t := by
  by_cases he : e.wellFormed = true
  · obtain ⟨u, hserve, -⟩ := serve_setPending e s s.pending he
    exact ⟨u, hserve, (performAll_cons_next es hserve).symm.trans h⟩
  · rw [performAll_cons_fault es (serve_ill_formed e s (Bool.eq_false_of_not_eq_true he))] at h
    cases h

/-- Each event reports its own violation and keeps the report of the earlier ones. -/
theorem performAll_err_iff {es : List Event} (hreset : ∀ e ∈ es, e ≠ .reset) {s t : State}
    (h : performAll es s = .next t) : t.ERR = 1 ↔ s.ERR = 1 ∨ ∃ e ∈ es, e.violates := by
  induction es generalizing s with
  | nil =>
    obtain rfl := Host.Outcome.next.inj h
    simp
  | cons e es ih =>
    obtain ⟨u, hserve, hrest⟩ := performAll_cons_eq_next h
    obtain ⟨he, hes⟩ := List.forall_mem_cons.mp hreset
    rw [ih hes hrest, serve_err_iff he hserve, List.exists_mem_cons_iff, or_assoc]

/-- Settles O46: the run is the fold of its events, and events still to come are no part of `ERR`. -/
theorem errReportsTheWholeRun : Obligations.ErrReportsTheWholeRun := by
  intro es rest s t hreset hrun
  rw [(runIsTheFoldOfItsEvents es rest s).1] at hrun
  exact performAll_err_iff (s := s.setPending rest) hreset hrun

end Sys2Proof.Machine

namespace Sys2Proof.Machine

/-! Reset as a step (`70_reset_and_hazards.md` R170, R171). -/

theorem step_reset {s : State} {rest : List Event} (hpend : s.pending = .reset :: rest) :
    step s = .next (s.resetEngine.setPending rest) :=
  (step_event s hpend).trans (serve_reset (s.setPending rest))

theorem statusByte_of_ERR_eq_zero {s : State} (herr : s.ERR = 0) : s.statusByte = 0x00 := by
  rw [statusByte_eq_ofNat, herr]
  rfl

/-- Settles O41, by the step of a reset: `ERR` is cleared, and the host's lists are kept but for the reset itself
(log entry 16). -/
theorem resetIsAlwaysEnabledAndClearsErr : Obligations.ResetIsAlwaysEnabledAndClearsErr := by
  intro s rest hpend
  have herr : (s.resetEngine.setPending rest).ERR = 0 := resetEngine_ERR s
  exact ⟨_, step_reset hpend, herr, statusByte_of_ERR_eq_zero herr, setPending_pending _ rest,
    resetEngine_returned s⟩

end Sys2Proof.Machine

namespace Sys2Proof.Machine

/-! The bytes and the model's own fields that a reset leaves (log entries 1, 2, 3 and 19). -/

/-- The operand window after a reset, `S` and `B` alike: the free bytes from the old `draws` on. -/
theorem resetEngine_opw_getElem (s : State) (k : Nat) (h : k < 128) :
    s.resetEngine.opw[k] = Config.freeByte (s.draws + k) := by
  rw [opw_getElem]
  split
  · rw [resetEngine_S, drawOperand_getElem]
  · have hk : s.draws + 64 + (k - 64) = s.draws + k := by omega
    rw [resetEngine_B, drawOperand_getElem, hk]

/-- Settles O42, by the state that a reset leaves. -/
theorem resetDrawsFreshBytes : Obligations.ResetDrawsFreshBytes :=
  fun s => ⟨s.resetEngine, serve_reset s, resetEngine_draws s, resetEngine_opw_getElem s⟩

@[simp] theorem reset_pending : State.reset.pending = [] := rfl
@[simp] theorem reset_returned : State.reset.returned = [] := rfl
@[simp] theorem reset_draws : State.reset.draws = 128 := rfl

/-- Settles O43: the host has presented and received nothing yet, and one whole set of free bytes is drawn. -/
theorem invHoldsAtReset : Obligations.InvHoldsAtReset := by
  refine ⟨fun e he => ?presented, fun d hd => ?received, ?drawn⟩
  case presented =>
    rw [reset_pending] at he
    exact absurd he List.not_mem_nil
  case received =>
    rw [reset_returned] at hd
    exact absurd hd List.not_mem_nil
  case drawn => rw [reset_draws]

end Sys2Proof.Machine
